-- ==== Sys2Proof/Word.lean ====
section
/-! DEFINITION. The word types of BFX: bytes, bus words, 64-bit arguments, window offsets, register indexes. -/

namespace Sys2Proof

/-- One stored byte; bit 0 is its least-significant bit (00_scope.md R13). -/
abbrev Byte := BitVec 8

/-- A bus word, a command word, a 32-bit register (20_memory.md R82). -/
abbrev Word32 := BitVec 32

/-- A 64-bit register: ARG0, ARG1, RES (10_state.md R39, R42). -/
abbrev Word64 := BitVec 64

/-- A byte offset in the register window, `bus_addr` (20_memory.md R80, R81). -/
abbrev Offset := BitVec 12

/-- A register field of a command word, 0 to 15 (30_encoding.md R120). -/
abbrev RegIdx := BitVec 4

end Sys2Proof
end

