-- ==== Sys2Proof/Config.lean ====
section
/-! DEFINITION. The build-time parameters of a BFX block (00_scope.md R10) and the platform's window base. -/

namespace Sys2Proof

/-- `SUB_ORDER`, the bit placement of SUBBS (00_scope.md R10, 44_slice.md R243). -/
inductive SubOrder where
  /-- 0: the first bit read is the most significant bit of the result. -/
  | reverse
  /-- 1: bytes fill most significant first, each byte fills from bit 0 upward. -/
  | byteMsbBitLsb
  /-- 2: result position k holds source position start + k. -/
  | straight
deriving DecidableEq, Repr

/-- The build-time parameters, "A model takes each one as an argument" (00_scope.md R10). They are
carried by the state as data that no step changes (assumption log 1, DESIGN CHOICE). -/
structure Params where
  /-- `NBS`, the number of bit-string registers. -/
  nbs : Nat
  /-- `VMAX`, the byte capacity of each bit-string register and of IBUF and OBUF. -/
  vmax : Nat
  /-- `U2B_MASK`, whether U2B masks its value to `len` bits. -/
  u2bMask : Bool
  /-- `SUB_ORDER`. -/
  subOrder : SubOrder
deriving DecidableEq, Repr

/-- The defaults of 00_scope.md R10: NBS 4, VMAX 2^29, U2B_MASK 1, SUB_ORDER 0. -/
def Params.defaults : Params :=
  { nbs := 4, vmax := 2 ^ 29, u2bMask := true, subOrder := .reverse }

/-- The legal values of 00_scope.md R10. -/
abbrev Params.Legal (p : Params) : Prop :=
  1 ≤ p.nbs ∧ p.nbs ≤ 16 ∧ 1 ≤ p.vmax ∧ p.vmax ≤ 2 ^ 29

/-- `WINDOW_BASE`, where the platform puts the register window in the host's address space
(20_memory.md R81). The spec gives it no value and "no rule of the block depends on it", so it is a
constant with no body (assumption log 14). -/
opaque Config.windowBase : Nat

end Sys2Proof
end

