-- ==== Sys2Proof/Syntax.lean ====
section
/-! DEFINITION. The twelve commands (30_encoding.md R124), one constructor per row of spec/opcode_table.json. -/

namespace Sys2Proof

/-- A command of BFX. `rd` names the register a command creates, `rs` its receiver
(30_encoding.md R121). Commands carry no immediates (R122). -/
inductive Instr where
  /-- LOADBS bD, opcode 0x01 (40_construct.md R150). -/
  | loadbs (rd : RegIdx)
  /-- NULLBS bD, opcode 0x02 (40_construct.md R154). -/
  | nullbs (rd : RegIdx)
  /-- NEWBS bD, opcode 0x03 (40_construct.md R156). -/
  | newbs (rd : RegIdx)
  /-- U2B, opcode 0x04, no register fields (40_construct.md R160). -/
  | u2b
  /-- UPDV bS, opcode 0x05 (41_update.md R170). -/
  | updv (rs : RegIdx)
  /-- TRUNC bS, opcode 0x06 (41_update.md R176). -/
  | trunc (rs : RegIdx)
  /-- GETBIT bS, opcode 0x07 (42_bitaccess.md R190). -/
  | getbit (rs : RegIdx)
  /-- MAXBIT bS, opcode 0x08 (42_bitaccess.md R196). -/
  | maxbit (rs : RegIdx)
  /-- TOUINT bS, opcode 0x09 (43_integer.md R210). -/
  | touint (rs : RegIdx)
  /-- FROMUINT bS, opcode 0x0A (43_integer.md R215). -/
  | fromuint (rs : RegIdx)
  /-- ADDUINT bS, opcode 0x0B (43_integer.md R220). -/
  | adduint (rs : RegIdx)
  /-- SUBBS bD, bS, opcode 0x0C (44_slice.md R240). -/
  | subbs (rd rs : RegIdx)
deriving DecidableEq, Repr

/-- The `rd` field of a command, if the command uses one (30_encoding.md R124). -/
def Instr.rd? : Instr → Option RegIdx
  | .loadbs rd => some rd
  | .nullbs rd => some rd
  | .newbs rd => some rd
  | .subbs rd _ => some rd
  | .u2b => none
  | .updv _ => none
  | .trunc _ => none
  | .getbit _ => none
  | .maxbit _ => none
  | .touint _ => none
  | .fromuint _ => none
  | .adduint _ => none

/-- The `rs` field of a command, if the command uses one (30_encoding.md R124). -/
def Instr.rs? : Instr → Option RegIdx
  | .loadbs _ => none
  | .nullbs _ => none
  | .newbs _ => none
  | .u2b => none
  | .updv rs => some rs
  | .trunc rs => some rs
  | .getbit rs => some rs
  | .maxbit rs => some rs
  | .touint rs => some rs
  | .fromuint rs => some rs
  | .adduint rs => some rs
  | .subbs _ rs => some rs

/-- Why a command word is illegal (30_encoding.md R127). Every reason has the same effect, the ILLEGAL
fault; the names only say which condition of the rule holds. -/
inductive IllegalWord where
  /-- Bits 31:16 are not all 0. -/
  | highHalf
  /-- `opc` is 0x00 or in 0x0D to 0xFF. -/
  | opcode
  /-- A register field the opcode does not use is not 0: `rd`. -/
  | unusedRd
  /-- A register field the opcode does not use is not 0: `rs`. -/
  | unusedRs
deriving DecidableEq, Repr

end Sys2Proof
end

