-- ==== Sys2Proof/WellFormed.lean ====
section
/-! DEFINITION. Well-formed commands: every register field used names a register that exists. -/

namespace Sys2Proof

/-- A register field exists in a block of `nbs` registers (30_encoding.md R126: "`>= NBS`" is illegal). -/
def RegIdx.exists? (nbs : Nat) (r : RegIdx) : Bool := decide (r.toNat < nbs)

/-- The field checks of 30_encoding.md R126 that depend on NBS: the used `rd` and `rs` are below NBS. -/
def Instr.wellFormed (nbs : Nat) (i : Instr) : Bool :=
  (i.rd?.all (RegIdx.exists? nbs)) && (i.rs?.all (RegIdx.exists? nbs))

end Sys2Proof
end

