-- ==== Sys2Proof/Decode.lean ====
section
/-! DEFINITION. The decoder and the encoder of command words (30_encoding.md R120, R124, R126, R127).
The decoder is total (R130): a word is one of the twelve commands with its field values, or illegal by a
named condition. The condition on NBS is `Instr.wellFormed`, since it depends on a build parameter. -/

namespace Sys2Proof

/-- `opc`, bits 7:0 (30_encoding.md R120). -/
def fieldOpc (w : Word32) : BitVec 8 := w.extractLsb' 0 8

/-- `rd`, bits 11:8 (30_encoding.md R120). -/
def fieldRd (w : Word32) : RegIdx := w.extractLsb' 8 4

/-- `rs`, bits 15:12 (30_encoding.md R120). -/
def fieldRs (w : Word32) : RegIdx := w.extractLsb' 12 4

/-- `zero`, bits 31:16 (30_encoding.md R120). -/
def fieldZero (w : Word32) : BitVec 16 := w.extractLsb' 16 16

/-- A command that uses `rd` only: `rs` must be 0 (30_encoding.md R127). -/
def onlyRd (w : Word32) (make : RegIdx → Instr) : Except IllegalWord Instr :=
  if fieldRs w = 0 then .ok (make (fieldRd w)) else .error .unusedRs

/-- A command that uses `rs` only: `rd` must be 0 (30_encoding.md R127). -/
def onlyRs (w : Word32) (make : RegIdx → Instr) : Except IllegalWord Instr :=
  if fieldRd w = 0 then .ok (make (fieldRs w)) else .error .unusedRd

/-- The opcode map (30_encoding.md R124) on a word whose bits 31:16 are 0. -/
def decodeOpcode (w : Word32) : Except IllegalWord Instr :=
  match (fieldOpc w).toNat with
  | 0x01 => onlyRd w .loadbs
  | 0x02 => onlyRd w .nullbs
  | 0x03 => onlyRd w .newbs
  | 0x04 =>
    if fieldRd w = 0 then (if fieldRs w = 0 then .ok .u2b else .error .unusedRs)
    else .error .unusedRd
  | 0x05 => onlyRs w .updv
  | 0x06 => onlyRs w .trunc
  | 0x07 => onlyRs w .getbit
  | 0x08 => onlyRs w .maxbit
  | 0x09 => onlyRs w .touint
  | 0x0A => onlyRs w .fromuint
  | 0x0B => onlyRs w .adduint
  | 0x0C => .ok (.subbs (fieldRd w) (fieldRs w))
  | _ => .error .opcode

/-- The decoder: every word is a command or illegal by name (30_encoding.md R126, R127, R130). -/
def decode (w : Word32) : Except IllegalWord Instr :=
  if fieldZero w = 0 then decodeOpcode w else .error .highHalf

/-- The word `0000000000000000 ssss dddd oooooooo` (30_encoding.md R120). -/
def commandWord (rs rd : RegIdx) (opc : BitVec 8) : Word32 := 0#16 ++ rs ++ rd ++ opc

/-- The encoder, from the opcode map (30_encoding.md R124) and the words of R131. -/
def encode : Instr → Word32
  | .loadbs rd => commandWord 0 rd 0x01
  | .nullbs rd => commandWord 0 rd 0x02
  | .newbs rd => commandWord 0 rd 0x03
  | .u2b => commandWord 0 0 0x04
  | .updv rs => commandWord rs 0 0x05
  | .trunc rs => commandWord rs 0 0x06
  | .getbit rs => commandWord rs 0 0x07
  | .maxbit rs => commandWord rs 0 0x08
  | .touint rs => commandWord rs 0 0x09
  | .fromuint rs => commandWord rs 0 0x0A
  | .adduint rs => commandWord rs 0 0x0B
  | .subbs rd rs => commandWord rs rd 0x0C

/-- The command the decoder reads from a word numbered as spec/opcode_table.json numbers it: bit 0 is
the least significant bit, bits at and above `nbits` are 0. A command is exactly one 32-bit word
(30_encoding.md R130), so a number that does not fit 32 bits is no command. -/
def decodeTableWord (nbits w : Nat) : Option Instr :=
  if w % 2 ^ nbits < 2 ^ 32 then
    match decode (BitVec.ofNat 32 (w % 2 ^ nbits)) with
    | .ok i => some i
    | .error _ => none
  else none

end Sys2Proof
end

