-- ==== Sys2Proof/Machine/State.lean ====
section
/-! DEFINITION. The state of a BFX block as plain data (10_state.md R30, R51), its reset value (R50), and
the reasons a step can stop. -/

namespace Sys2Proof.Machine

/-- A bit-string register (10_state.md R31). `VLEN` is the length of `val`, so it is not stored again. -/
structure BitString where
  /-- `P`: the register holds a BitString (10_state.md R33: 0 is the null BitString). -/
  p : Bool
  /-- `LEN`, the number of significant bits. -/
  len : Word32
  /-- `VAL`, the stored bytes, most significant first (20_memory.md R96). -/
  val : List Byte
deriving DecidableEq, Repr

/-- The null BitString (10_state.md R33). -/
def BitString.null : BitString := { p := false, len := 0, val := [] }

/-- The cause codes that are ever written (60_exceptions.md R260). Codes 5 to 7 and 15 are reserved and
"never written", so they have no constructor (assumption log 15). -/
inductive Cause where
  /-- 0 OK: success. -/
  | ok
  /-- 1 NULL: invalid argument, null receiver (UPDV, TRUNC). -/
  | null
  /-- 2 LENGTH: invalid argument, byte-count mismatch (UPDV, TRUNC). -/
  | length
  /-- 3 ZEROLEN: invalid argument (TRUNC). -/
  | zeroLen
  /-- 4 RANGE: invalid argument, position outside [0, LEN) (GETBIT). -/
  | range
  /-- 8 ILLEGAL: fault, an illegal command word. -/
  | illegal
  /-- 9 NULLRCV: fault, a null receiver where the contract has no null check. -/
  | nullRcv
  /-- 10 BYTEIDX: fault, a position below LEN whose byte is not stored. -/
  | byteIdx
  /-- 11 WIDTH: fault, an integer that does not fit the 64-bit datapath. -/
  | width
  /-- 12 INVARIANT: fault, FromUint on a receiver that violates I1. -/
  | invariant
  /-- 13 CAPACITY: fault, a result longer than VMAX bytes. -/
  | capacity
  /-- 14 ZEROSLICE: fault, a SubBitString of length 0. -/
  | zeroSlice
deriving DecidableEq, Repr

/-- `STATUS` by its fields (10_state.md R43); the reserved bits read 0 and are not stored. -/
structure Status where
  /-- `CAUSE`. -/
  cause : Cause
  /-- `ERR`: the last executed command ended with the invalid-argument outcome. -/
  err : Bool
  /-- `FAULT`: a fault has been raised; sticky until reset. -/
  fault : Bool
deriving DecidableEq, Repr

/-- What the outside world does to the block, one event a step (20_memory.md R80, R83, R84;
70_reset_and_hazards.md R290). -/
inductive HostEvent where
  /-- A 32-bit read of a window offset: `MemRead(a, 4)`. -/
  | read (a : Offset)
  /-- A 32-bit write of a window offset: `MemWrite(a, 4, v)`. -/
  | write (a : Offset) (v : Word32)
  /-- An `rst_n` pulse. -/
  | resetPulse
deriving DecidableEq, Repr

/-- What the bus port shows of the access just completed: `bus_ack` with `bus_rdata` for a read
(20_memory.md R80). -/
inductive Reply where
  /-- A read completed with this word on `bus_rdata`. -/
  | data (v : Word32)
  /-- A write completed. -/
  | written
deriving DecidableEq, Repr

/-- IBUF: the written byte cells by index, in rising order. An unlisted cell is unwritten and has no
value (10_state.md R40, R49(a)). -/
abbrev Memory := List Host.Cell

/-- The whole state (10_state.md R51), with three fields of the model's own: `params` (log 1), `host`
(log 2) and `reply` (log 3). -/
structure State where
  /-- The build parameters (00_scope.md R10). No step changes them. -/
  params : Params
  /-- `B[0..15]`; those at NBS and above do not exist and stay null (assumption log 9). -/
  bank : Vector BitString 16
  /-- `ARG0` (10_state.md R39). -/
  arg0 : Word64
  /-- `ARG1` (10_state.md R39). -/
  arg1 : Word64
  /-- `RES` (10_state.md R42). -/
  res : Word64
  /-- `IBUF` (10_state.md R40). -/
  ibuf : Memory
  /-- `ILEN` (10_state.md R40). -/
  ilen : Word32
  /-- `OBUF`; `OLEN` is its length (10_state.md R41). -/
  obuf : List Byte
  /-- `STATUS` (10_state.md R43). -/
  status : Status
  /-- `INFO0` (10_state.md R44). -/
  info0 : Word32
  /-- `INFO1` (10_state.md R44). -/
  info1 : Word32
  /-- `BSEL` (10_state.md R46). -/
  bsel : BitVec 5
  /-- `BADDR` (10_state.md R46). -/
  baddr : Word32
  /-- The model's own: what the outside world still does, oldest first. -/
  host : List HostEvent
  /-- The model's own: the bus port's answer to the access the last step completed. -/
  reply : Option Reply
deriving DecidableEq, Repr

/-- The model faults (60_exceptions.md R268): conditions whose result the spec leaves unspecified on the
hardware and for which "A model records a model fault and stops". Both are safe: the model stops where
the hardware goes on with an unspecified byte. A fault the BLOCK raises (60_exceptions.md R264) is no
constructor here: it is a next state with STATUS.FAULT set. -/
inductive Fault where
  /-- UNINIT_IBUF: LOADBS or UPDV would copy an IBUF cell not written since reset. Safe. -/
  | uninitIbuf
  /-- UNINIT_HOST_READ: a BDATA read with BSEL = 16 of an IBUF cell not written since reset. Safe. -/
  | uninitHostRead
deriving DecidableEq, Repr

/-- The reasons a step is refused. -/
inductive Refusal where
  /-- An instruction that has no meaning yet; raised by no arm of this model. Safe. -/
  | notModelled (mnemonic : String)
  /-- A bus access with `bus_addr[1:0] != 0`, which has no step (20_memory.md R83, 60_exceptions.md R269);
  raised by the bus accesses `memRead` and `memWrite`. Safe. -/
  | misaligned
deriving DecidableEq, Repr

/-- What a step of this machine answers. -/
abbrev Result := Host.Outcome State Fault Refusal

/-- The state after reset of a block with the given parameters (10_state.md R50,
70_reset_and_hazards.md R290). -/
def State.resetFor (params : Params) : State where
  params := params
  bank := Vector.replicate 16 BitString.null
  arg0 := 0
  arg1 := 0
  res := 0
  ibuf := []
  ilen := 0
  obuf := []
  status := { cause := .ok, err := false, fault := false }
  info0 := 0
  info1 := 0
  bsel := 0
  baddr := 0
  host := []
  reply := none

/-- The state after reset of a block with the default parameters (00_scope.md R10, 10_state.md R50). -/
def State.reset : State := State.resetFor Params.defaults

end Sys2Proof.Machine
end

