-- ==== Sys2Proof/Machine/Bytes.lean ====
section
/-! DEFINITION. The integer and byte-sequence functions of 00_scope.md R15, the bit read of 10_state.md R36,
and the bit placement of 44_slice.md R243. Integers are Nat, "mathematical integers with no overflow" (R12). -/

namespace Sys2Proof.Machine

/-- `nbytes(L) = (L + 7) div 8`, exact (00_scope.md R15). -/
def nbytes (L : Nat) : Nat := (L + 7) / 8

/-- `mask(v, L) = v mod 2^L` (00_scope.md R15). -/
def mask (v L : Nat) : Nat := v % 2 ^ L

/-- `beval`, the big-endian fold `v = v*256 + byte`, left to right (00_scope.md R15). -/
def beval (bytes : List Byte) : Nat := bytes.foldl (fun v x => v * 256 + x.toNat) 0

/-- `bepack(v, n)`, n bytes big-endian, keeping v mod 256^n (00_scope.md R15). -/
def bepack (v n : Nat) : List Byte :=
  (List.range n).map fun i => BitVec.ofNat 8 (v / 256 ^ (n - 1 - i))

/-- `VLEN`, the number of stored bytes (10_state.md R31). -/
def BitString.vlen (b : BitString) : Nat := b.val.length

/-- Invariant I1, `VLEN = nbytes(LEN)`, which is not a property of every state (10_state.md R34). -/
abbrev BitString.I1 (b : BitString) : Prop := b.vlen = nbytes b.len.toNat

/-- `readbit(b, p)`: bit `p mod 8` of byte `VLEN - 1 - p div 8`, and none where that index is below 0,
which the caller turns into the BYTEIDX fault (10_state.md R36). -/
def readbit (b : BitString) (p : Nat) : Option Bool :=
  if p / 8 < b.vlen then (b.val[b.vlen - 1 - p / 8]?).map fun x => x.getLsbD (p % 8) else none

/-- The trailing-bit count of TRUNC, `8*nbytes(LEN) - LEN` (41_update.md R177). -/
def trailingBits (L : Nat) : Nat := 8 * nbytes L - L

/-- The byte mask of TRUNC, `255 - (2^t - 1)` (41_update.md R177). -/
def keepMask (t : Nat) : Byte := BitVec.ofNat 8 (255 - (2 ^ t - 1))

/-- The truncated bytes: the low `t` bits of byte `e-1`, the last one, cleared (41_update.md R177). -/
def truncBytes (bytes : List Byte) (L : Nat) : List Byte :=
  bytes.modify (nbytes L - 1) fun x => x &&& keepMask (trailingBits L)

/-- MAXBIT's scan over positions `n-1` down to 0 (42_bitaccess.md R197): the first position whose bit is
1, none if there is none, an error at a position whose byte is not stored. -/
def scanDown (b : BitString) : Nat → Except Nat (Option Nat)
  | 0 => .ok none
  | p + 1 =>
    match readbit b p with
    | none => .error p
    | some true => .ok (some p)
    | some false => scanDown b p

/-- `bff = L - (n-1)*8`, the source's `bitsFirstByte` (44_slice.md R243). -/
def bitsFirstByte (L : Nat) : Nat := L - (nbytes L - 1) * 8

/-- `place(k, L)`, the result position of the k-th bit read (44_slice.md R243). -/
def place (order : SubOrder) (k L : Nat) : Nat :=
  match order with
  | .reverse => L - 1 - k
  | .byteMsbBitLsb =>
    if k < bitsFirstByte L then 8 * (nbytes L - 1) + k
    else
      8 * (nbytes L - 1 - ((k - bitsFirstByte L) / 8 + 1)) + (k - bitsFirstByte L) % 8
  | .straight => k

/-- One bit of SUBBS at source position `p`: a stored bit below LEN, a zero bit at and above LEN with no
error, an error where the byte is not stored (44_slice.md R241). -/
def sliceBit (b : BitString) (p : Nat) : Except Nat Nat :=
  if p < b.len.toNat then
    match readbit b p with
    | none => .error p
    | some x => .ok x.toNat
  else .ok 0

/-- The integer `R` of SUBBS after the first `n` bits read (44_slice.md R241), or the first position in
read order whose byte is not stored. -/
def sliceSum (order : SubOrder) (b : BitString) (start L : Nat) : Nat → Except Nat Nat
  | 0 => .ok 0
  | k + 1 =>
    match sliceSum order b start L k with
    | .error p => .error p
    | .ok r =>
      match sliceBit b (start + k) with
      | .error p => .error p
      | .ok x => .ok (r + x * 2 ^ place order k L)

end Sys2Proof.Machine
end

