-- ==== Sys2Proof/Machine/Flags.lean ====
section
/-! DEFINITION. Every computation of STATUS: the cause codes, the ERR and FAULT bits after each outcome,
and the word the host reads (10_state.md R43, 60_exceptions.md R260 to R265). -/

namespace Sys2Proof.Machine

/-- The 4-bit code of a cause (60_exceptions.md R260). -/
def Cause.code : Cause → BitVec 4
  | .ok => 0
  | .null => 1
  | .length => 2
  | .zeroLen => 3
  | .range => 4
  | .illegal => 8
  | .nullRcv => 9
  | .byteIdx => 10
  | .width => 11
  | .invariant => 12
  | .capacity => 13
  | .zeroSlice => 14

/-- The invalid-argument causes, codes 1 to 4 (60_exceptions.md R260). -/
def Cause.isInvalid (c : Cause) : Bool := decide (1 ≤ c.code.toNat) && decide (c.code.toNat ≤ 4)

/-- The fault causes, codes 8 to 14 (60_exceptions.md R260). -/
def Cause.isFault (c : Cause) : Bool := decide (8 ≤ c.code.toNat)

/-- STATUS after the success outcome: CAUSE 0, ERR 0, FAULT not written (60_exceptions.md R262). -/
def Status.succeeded (st : Status) : Status := { cause := .ok, err := false, fault := st.fault }

/-- STATUS after the invalid-argument outcome: ERR 1, FAULT not written (60_exceptions.md R263). -/
def Status.invalidated (st : Status) (c : Cause) : Status :=
  { cause := c, err := true, fault := st.fault }

/-- STATUS after the fault outcome: ERR 0, FAULT 1 (60_exceptions.md R264). -/
def Status.faulted (c : Cause) : Status := { cause := c, err := false, fault := true }

/-- The STATUS word: CAUSE in 3:0, ERR in bit 8, FAULT in bit 9, every other bit 0
(10_state.md R43; 60_exceptions.md R265: "`CAUSE + ERR*0x100 + FAULT*0x200`"). -/
def Status.word (st : Status) : Word32 :=
  0#22 ++ BitVec.ofBool st.fault ++ BitVec.ofBool st.err ++ 0#4 ++ st.cause.code

end Sys2Proof.Machine
end

