-- ==== Sys2Proof/Machine/Ops.lean ====
section
/-! DEFINITION. The named operations over the registers and IBUF, the three outcomes of a command
(60_exceptions.md R262 to R264), and reset (70_reset_and_hazards.md R290).

BFX has no exception entry: no vector, no saved program counter, no handler and no return (R271). What it
does on a fault is `raiseFault`, the one operation every fault goes through; the only way out is
`resetBlock`. -/

namespace Sys2Proof.Machine

/-- The canonical form of IBUF's cell list: indexes strictly rising. -/
def Memory.wf : Memory → Bool
  | [] => true
  | [_] => true
  | (a, _) :: (b, y) :: rest => decide (a < b) && Memory.wf ((b, y) :: rest)

/-- One cell of IBUF; none for a cell not written since reset (10_state.md R40). -/
def Memory.read (m : Memory) (a : Nat) : Option Byte :=
  match m with
  | [] => none
  | (k, x) :: rest => if k = a then some x else Memory.read rest a

/-- Write one cell of IBUF, keeping the list's order (20_memory.md R95). -/
def Memory.write (m : Memory) (a : Nat) (x : Byte) : Memory :=
  match m with
  | [] => [(a, x)]
  | (k, y) :: rest =>
    if a < k then (a, x) :: (k, y) :: rest
    else if a = k then (a, x) :: rest
    else (k, y) :: Memory.write rest a x

/-- The `n` cells from index `a`, or none if one of them is unwritten. -/
def Memory.bytes (m : Memory) (a : Nat) : Nat → Option (List Byte)
  | 0 => some []
  | n + 1 =>
    match Memory.read m a, Memory.bytes m (a + 1) n with
    | some x, some xs => some (x :: xs)
    | _, _ => none

/-- `B[r]` (00_scope.md R16). -/
def State.bs (s : State) (r : RegIdx) : BitString := s.bank[r.toNat]'(r.isLt)

/-- `B[r] <- b`, a write of the whole register (00_scope.md R16, 10_state.md R31). -/
def State.setBs (s : State) (r : RegIdx) (b : BitString) : State :=
  { s with bank := s.bank.set r.toNat b r.isLt }

/-- `B[r].VAL <- bytes`; LEN and P are unchanged (10_state.md R31). -/
def State.setVal (s : State) (r : RegIdx) (bytes : List Byte) : State :=
  s.setBs r { s.bs r with val := bytes }

/-- `OLEN`, the length of OBUF (10_state.md R41). -/
def State.olen (s : State) : Nat := s.obuf.length

/-- `OBUF <- bytes`, `OLEN` with it (10_state.md R41). -/
def State.setObuf (s : State) (bytes : List Byte) : State := { s with obuf := bytes }

/-- `RES <- v` (10_state.md R42). -/
def State.setRes (s : State) (v : Word64) : State := { s with res := v }

/-- The success outcome (60_exceptions.md R262): CAUSE, ERR, INFO0 and INFO1 become 0. -/
def succeed (s : State) : Result :=
  .next { s with status := s.status.succeeded, info0 := 0, info1 := 0 }

/-- `return InvalidArgument(cause, i0, i1)` (60_exceptions.md R263). -/
def invalidArgument (c : Cause) (i0 i1 : Nat) (s : State) : Result :=
  .next { s with status := s.status.invalidated c, info0 := BitVec.ofNat 32 i0, info1 := BitVec.ofNat 32 i1 }

/-- `raise Fault(cause, i0, i1)` (60_exceptions.md R264): only STATUS, INFO0 and INFO1 change, and FAULT
is set. It is BFX's one shared exception operation. -/
def raiseFault (c : Cause) (i0 i1 : Nat) (s : State) : Result :=
  .next { s with status := Status.faulted c, info0 := BitVec.ofNat 32 i0, info1 := BitVec.ofNat 32 i1 }

/-- The effect of an `rst_n` pulse (70_reset_and_hazards.md R290, R291): every piece of the block's state
takes its reset value. The build parameters and what the outside world still does are not the block's
state and stay. -/
def resetBlock (s : State) : State := { State.resetFor s.params with host := s.host }

/-- The bus port's answer to a read (20_memory.md R80). -/
def State.answer (s : State) (v : Word32) : State := { s with reply := some (.data v) }

end Sys2Proof.Machine
end

