-- ==== Sys2Proof/Machine/Operands.lean ====
section
/-! DEFINITION. Every operand form of the commands (30_encoding.md R122, R125). -/

namespace Sys2Proof.Machine

/-- `value` and `a`: ARG0 as an unsigned 64-bit integer (NEWBS, U2B, FROMUINT, ADDUINT). -/
def State.argValue (s : State) : Nat := s.arg0.toNat

/-- `pos = sext_64(ARG0)`, ARG0 as a signed 64-bit integer (GETBIT). -/
def State.argPos (s : State) : Int := s.arg0.toInt

/-- `start = ARG0[31:0]`; ARG0[63:32] is ignored (SUBBS). -/
def State.argStart (s : State) : Nat := (s.arg0.extractLsb' 0 32).toNat

/-- `len = ARG1[31:0]`; ARG1[63:32] is ignored (LOADBS, NEWBS, U2B, SUBBS). -/
def State.argLen (s : State) : Word32 := s.arg1.extractLsb' 0 32

/-- The candidate sequence `IBUF[0 .. ILEN-1]` (LOADBS, UPDV), or none if one of its cells is unwritten. -/
def State.candidate (s : State) : Option (List Byte) := s.ibuf.bytes 0 s.ilen.toNat

/-- `ARG0[31:0]`, INFO0 of the RANGE outcome (60_exceptions.md R261). -/
def State.arg0Lo (s : State) : Nat := (s.arg0.extractLsb' 0 32).toNat

/-- `ARG0[63:32]`, INFO1 of the RANGE outcome (60_exceptions.md R261). -/
def State.arg0Hi (s : State) : Nat := (s.arg0.extractLsb' 32 32).toNat

end Sys2Proof.Machine
end

