-- ==== Sys2Proof/Machine/BitAccess.lean ====
section
/-! DEFINITION. GETBIT and MAXBIT (42_bitaccess.md). -/

namespace Sys2Proof.Machine

/-- GETBIT (42_bitaccess.md R191): the range check uses LEN, the byte index VLEN. -/
def execGetbit (rs : RegIdx) (s : State) : Result :=
  let b := s.bs rs
  if b.p = false then raiseFault .nullRcv rs.toNat 0 s
  else if s.argPos < 0 ∨ s.argPos ≥ (b.len.toNat : Int) then
    invalidArgument .range s.arg0Lo s.arg0Hi (s.setRes 0)
  else
    match readbit b s.argPos.toNat with
    | none => raiseFault .byteIdx s.argPos.toNat b.vlen s
    | some x => succeed (s.setRes (BitVec.ofNat 64 x.toNat))

/-- RES of MAXBIT: the position, or -1 in two's complement (42_bitaccess.md R197). -/
def maxbitResult : Option Nat → Word64
  | some p => BitVec.ofNat 64 p
  | none => BitVec.ofNat 64 (2 ^ 64 - 1)

/-- MAXBIT (42_bitaccess.md R197). -/
def execMaxbit (rs : RegIdx) (s : State) : Result :=
  let b := s.bs rs
  if b.p = false then raiseFault .nullRcv rs.toNat 0 s
  else
    match scanDown b b.len.toNat with
    | .error p => raiseFault .byteIdx p b.vlen s
    | .ok r => succeed (s.setRes (maxbitResult r))

end Sys2Proof.Machine
end

