-- ==== Sys2Proof/Machine/Construct.lean ====
section
/-! DEFINITION. LOADBS, NULLBS, NEWBS, U2B (40_construct.md). -/

namespace Sys2Proof.Machine

/-- LOADBS (40_construct.md R151): copies the length and the bytes as given, with no check. -/
def execLoadbs (rd : RegIdx) (s : State) : Result :=
  match s.candidate with
  | none => .fault .uninitIbuf
  | some bytes => succeed (s.setBs rd { p := true, len := s.argLen, val := bytes })

/-- NULLBS (40_construct.md R154). -/
def execNullbs (rd : RegIdx) (s : State) : Result := succeed (s.setBs rd BitString.null)

/-- NEWBS (40_construct.md R157). -/
def execNewbs (rd : RegIdx) (s : State) : Result :=
  let n := nbytes s.argLen.toNat
  if n > s.params.vmax then raiseFault .capacity n s.params.vmax s
  else
    succeed (s.setBs rd
      { p := true, len := s.argLen, val := bepack (mask s.argValue s.argLen.toNat) n })

/-- The integer U2B packs: masked to `len` bits iff U2B_MASK is 1 (40_construct.md R160, R161). -/
def u2bValue (s : State) : Nat :=
  if s.params.u2bMask then mask s.argValue s.argLen.toNat else s.argValue

/-- U2B (40_construct.md R160). -/
def execU2b (s : State) : Result :=
  let n := nbytes s.argLen.toNat
  if n > s.params.vmax then raiseFault .capacity n s.params.vmax s
  else succeed (s.setObuf (bepack (u2bValue s) n))

end Sys2Proof.Machine
end

