-- ==== Sys2Proof/Machine/Integer.lean ====
section
/-! DEFINITION. TOUINT, FROMUINT, ADDUINT (43_integer.md). -/

namespace Sys2Proof.Machine

/-- TOUINT (43_integer.md R211): the exact fold over every stored byte, no mask to LEN. -/
def execTouint (rs : RegIdx) (s : State) : Result :=
  let b := s.bs rs
  if b.p = false then raiseFault .nullRcv rs.toNat 0 s
  else if beval b.val ≥ 2 ^ 64 then raiseFault .width rs.toNat 0 s
  else succeed (s.setRes (BitVec.ofNat 64 (beval b.val)))

/-- FROMUINT (43_integer.md R216). -/
def execFromuint (rs : RegIdx) (s : State) : Result :=
  let b := s.bs rs
  let e := nbytes b.len.toNat
  if b.p = false then raiseFault .nullRcv rs.toNat 0 s
  else if b.vlen ≠ e then raiseFault .invariant b.vlen e s
  else succeed (s.setVal rs (bepack (mask s.argValue b.len.toNat) e))

/-- ADDUINT (43_integer.md R221): every check comes before the write. -/
def execAdduint (rs : RegIdx) (s : State) : Result :=
  let b := s.bs rs
  let e := nbytes b.len.toNat
  let t := beval b.val
  let sum := t + s.argValue
  if b.p = false then raiseFault .nullRcv rs.toNat 0 s
  else if b.vlen ≠ e then raiseFault .invariant b.vlen e s
  else if t ≥ 2 ^ 64 then raiseFault .width rs.toNat 0 s
  else if b.len.toNat > 64 ∧ sum ≥ 2 ^ 64 then raiseFault .width rs.toNat 1 s
  else succeed (s.setVal rs (bepack (mask sum b.len.toNat) e))

end Sys2Proof.Machine
end

