-- ==== Sys2Proof/Machine/Slice.lean ====
section
/-! DEFINITION. SUBBS (44_slice.md). -/

namespace Sys2Proof.Machine

/-- SUBBS (44_slice.md R241, R242): the source is the old value, also when rd = rs; the result is written
only at the end. -/
def execSubbs (rd rs : RegIdx) (s : State) : Result :=
  let b := s.bs rs
  let L := s.argLen.toNat
  let n := nbytes L
  if b.p = false then raiseFault .nullRcv rs.toNat 0 s
  else if L = 0 then raiseFault .zeroSlice 0 0 s
  else if n > s.params.vmax then raiseFault .capacity n s.params.vmax s
  else
    match sliceSum s.params.subOrder b s.argStart L L with
    | .error p => raiseFault .byteIdx p b.vlen s
    | .ok r => succeed (s.setBs rd { p := true, len := s.argLen, val := bepack r n })

end Sys2Proof.Machine
end

