-- ==== Sys2Proof/Machine/Update.lean ====
section
/-! DEFINITION. UPDV and TRUNC (41_update.md). -/

namespace Sys2Proof.Machine

/-- UPDV (41_update.md R171): the null check, the length check, then the replacement. -/
def execUpdv (rs : RegIdx) (s : State) : Result :=
  let b := s.bs rs
  let e := nbytes b.len.toNat
  if b.p = false then invalidArgument .null rs.toNat 0 (s.setObuf [])
  else if s.ilen.toNat ≠ e then invalidArgument .length s.ilen.toNat e (s.setObuf b.val)
  else
    match s.candidate with
    | none => .fault .uninitIbuf
    | some bytes => succeed ((s.setVal rs bytes).setObuf bytes)

/-- TRUNC (41_update.md R177): it clears the LOW bits of the last byte, as the source's algorithm does
(90_conflicts.md C1: the clearing is kept and not repaired). -/
def execTrunc (rs : RegIdx) (s : State) : Result :=
  let b := s.bs rs
  let e := nbytes b.len.toNat
  if b.p = false then invalidArgument .null rs.toNat 0 (s.setObuf [])
  else if b.len = 0 then invalidArgument .zeroLen 0 0 (s.setObuf [])
  else if b.vlen ≠ e then invalidArgument .length b.vlen e (s.setObuf [])
  else
    let bytes := truncBytes b.val b.len.toNat
    succeed ((s.setVal rs bytes).setObuf bytes)

end Sys2Proof.Machine
end

