-- ==== Sys2Proof/Machine/Dispatch.lean ====
section
/-! DEFINITION. The command a decoded word runs (30_encoding.md R124). -/

namespace Sys2Proof.Machine

def exec (i : Instr) (s : State) : Host.Outcome State Fault Refusal :=
  match i with
  | .loadbs rd => Sys2Proof.Machine.execLoadbs rd s
  | .nullbs rd => Sys2Proof.Machine.execNullbs rd s
  | .newbs rd => Sys2Proof.Machine.execNewbs rd s
  | .u2b => Sys2Proof.Machine.execU2b s
  | .updv rs => Sys2Proof.Machine.execUpdv rs s
  | .trunc rs => Sys2Proof.Machine.execTrunc rs s
  | .getbit rs => Sys2Proof.Machine.execGetbit rs s
  | .maxbit rs => Sys2Proof.Machine.execMaxbit rs s
  | .touint rs => Sys2Proof.Machine.execTouint rs s
  | .fromuint rs => Sys2Proof.Machine.execFromuint rs s
  | .adduint rs => Sys2Proof.Machine.execAdduint rs s
  | .subbs rd rs => Sys2Proof.Machine.execSubbs rd rs s

end Sys2Proof.Machine
end

