-- ==== Sys2Proof/Machine/Window.lean ====
section
/-! DEFINITION. The register window (20_memory.md R81 to R95) but for writes to CMD: which register an
offset names, what each reads, what a write of each does. -/

namespace Sys2Proof.Machine

/-- The registers of the window (20_memory.md R87). -/
inductive WindowReg where
  | id | caps | vmaxr | cmd | status | info0 | info1
  | arg0Lo | arg0Hi | arg1Lo | arg1Hi | resLo | resHi
  | ilen | olen | bsel | baddr | bdata
  | bctl (i : RegIdx) | blen (i : RegIdx) | bvlen (i : RegIdx)
  /-- An offset the map reserves (20_memory.md R90). -/
  | reserved
deriving DecidableEq, Repr

/-- An access is word-aligned, `bus_addr[1:0] = 0` (20_memory.md R82, R83). -/
def aligned (a : Offset) : Bool := a.toNat % 4 == 0

/-- A header of `B[i]` at offset 0x100 + 0x10*i + j (20_memory.md R87). -/
def headerReg (i : RegIdx) : Nat → WindowReg
  | 0x0 => .bctl i
  | 0x4 => .blen i
  | 0x8 => .bvlen i
  | _ => .reserved

/-- The register map (20_memory.md R87). -/
def windowReg (a : Offset) : WindowReg :=
  match a.toNat with
  | 0x000 => .id
  | 0x004 => .caps
  | 0x008 => .vmaxr
  | 0x00C => .cmd
  | 0x010 => .status
  | 0x014 => .info0
  | 0x018 => .info1
  | 0x020 => .arg0Lo
  | 0x024 => .arg0Hi
  | 0x028 => .arg1Lo
  | 0x02C => .arg1Hi
  | 0x030 => .resLo
  | 0x034 => .resHi
  | 0x040 => .ilen
  | 0x044 => .olen
  | 0x050 => .bsel
  | 0x054 => .baddr
  | 0x058 => .bdata
  | n =>
    if 0x100 ≤ n ∧ n < 0x200 then headerReg (BitVec.ofNat 4 ((n - 0x100) / 0x10)) (n % 0x10)
    else .reserved

/-- The offset of a register of the map, the inverse of `windowReg` on the named registers
(20_memory.md R87); a reserved offset has no one place, 0x01C stands for it. -/
def offsetOf : WindowReg → Offset
  | .id => 0x000
  | .caps => 0x004
  | .vmaxr => 0x008
  | .cmd => 0x00C
  | .status => 0x010
  | .info0 => 0x014
  | .info1 => 0x018
  | .reserved => 0x01C
  | .arg0Lo => 0x020
  | .arg0Hi => 0x024
  | .arg1Lo => 0x028
  | .arg1Hi => 0x02C
  | .resLo => 0x030
  | .resHi => 0x034
  | .ilen => 0x040
  | .olen => 0x044
  | .bsel => 0x050
  | .baddr => 0x054
  | .bdata => 0x058
  | .bctl i => BitVec.ofNat 12 (0x100 + 0x10 * i.toNat)
  | .blen i => BitVec.ofNat 12 (0x104 + 0x10 * i.toNat)
  | .bvlen i => BitVec.ofNat 12 (0x108 + 0x10 * i.toNat)

/-- Where the platform puts a window offset in the host's address space (20_memory.md R81). -/
def hostAddress (a : Offset) : Nat := Config.windowBase + a.toNat

/-- The code of SUB_ORDER in CAPS[18:17] (00_scope.md R10). -/
def subOrderCode : SubOrder → Nat
  | .reverse => 0
  | .byteMsbBitLsb => 1
  | .straight => 2

/-- `ID`, the constant 0x42465801 (10_state.md R47). -/
def idWord : Word32 := 0x42465801

/-- `CAPS`: [4:0] NBS, [15:8] 64, [16] U2B_MASK, [18:17] SUB_ORDER, the other bits 0 (10_state.md R47). -/
def capsWord (p : Params) : Word32 :=
  BitVec.ofNat 32 (p.nbs % 32 + 64 * 2 ^ 8 + p.u2bMask.toNat * 2 ^ 16 + subOrderCode p.subOrder * 2 ^ 17)

/-- `VMAXR`, the constant VMAX (10_state.md R47). -/
def vmaxWord (p : Params) : Word32 := BitVec.ofNat 32 p.vmax

/-- A header field of `B[i]`: 0 for i at and above NBS, whose offsets are reserved (20_memory.md R92). -/
def header (s : State) (i : RegIdx) (field : BitString → Nat) : Word32 :=
  if i.toNat < s.params.nbs then BitVec.ofNat 32 (field (s.bs i)) else 0

/-- What a read of a register without side effect answers (20_memory.md R86, R87, R89 to R92). BDATA is
read by `readBdata`. -/
def peek (s : State) : WindowReg → Word32
  | .id => idWord
  | .caps => capsWord s.params
  | .vmaxr => vmaxWord s.params
  | .cmd => 0
  | .status => s.status.word
  | .info0 => s.info0
  | .info1 => s.info1
  | .arg0Lo => s.arg0.extractLsb' 0 32
  | .arg0Hi => s.arg0.extractLsb' 32 32
  | .arg1Lo => s.arg1.extractLsb' 0 32
  | .arg1Hi => s.arg1.extractLsb' 32 32
  | .resLo => s.res.extractLsb' 0 32
  | .resHi => s.res.extractLsb' 32 32
  | .ilen => s.ilen
  | .olen => BitVec.ofNat 32 s.olen
  | .bsel => s.bsel.setWidth 32
  | .baddr => s.baddr
  | .bctl i => header s i fun b => b.p.toNat
  | .blen i => header s i fun b => b.len.toNat
  | .bvlen i => header s i BitString.vlen
  | .bdata => 0
  | .reserved => 0

/-- The register BSEL names when it is below NBS (20_memory.md R94, R95). -/
def State.selected (s : State) : BitString := s.bs (s.bsel.setWidth 4)

/-- `buflen()` (20_memory.md R95). BSEL is always legal (R94); the last case is that of no legal value. -/
def State.buflen (s : State) : Nat :=
  if s.bsel.toNat < s.params.nbs then s.selected.vlen
  else if s.bsel.toNat = 16 then s.params.vmax
  else if s.bsel.toNat = 17 then s.olen
  else 0

/-- BADDR <- (BADDR + 1) mod 2^32, on every BDATA access (20_memory.md R95). -/
def State.bumpBaddr (s : State) : State := { s with baddr := s.baddr + 1 }

/-- A byte on the bus, `zext_32` (20_memory.md R95, 00_scope.md R15). -/
def byteWord (x : Byte) : Word32 := x.setWidth 32

/-- A read of BDATA (20_memory.md R95): 0 past the end of the buffer; a model fault on an unwritten IBUF
cell (60_exceptions.md R268). -/
def readBdata (s : State) : Result :=
  let i := s.baddr.toNat
  if s.buflen ≤ i then .next (s.bumpBaddr.answer 0)
  else if s.bsel.toNat < s.params.nbs then .next (s.bumpBaddr.answer (byteWord (s.selected.val.getD i 0)))
  else if s.bsel.toNat = 17 then .next (s.bumpBaddr.answer (byteWord (s.obuf.getD i 0)))
  else
    match s.ibuf.read i with
    | none => .fault .uninitHostRead
    | some x => .next (s.bumpBaddr.answer (byteWord x))

/-- `MemRead(a, 4)` (00_scope.md R18, 20_memory.md R83 to R95). -/
def memRead (a : Offset) (s : State) : Result :=
  if aligned a then
    if windowReg a = .bdata then readBdata s else .next (s.answer (peek s (windowReg a)))
  else .refused .misaligned

/-- A write of BDATA (20_memory.md R95): only IBUF is writable, BADDR is incremented in every case. -/
def writeBdata (v : Word32) (s : State) : State :=
  if s.bsel.toNat = 16 ∧ s.baddr.toNat < s.params.vmax then
    State.bumpBaddr { s with ibuf := s.ibuf.write s.baddr.toNat (v.extractLsb' 0 8) }
  else s.bumpBaddr

/-- A value BSEL may hold: below NBS, 16 (IBUF) or 17 (OBUF) (20_memory.md R94). -/
def legalBsel (nbs v : Nat) : Bool := decide (v < nbs) || v == 16 || v == 17

/-- A write of a 64-bit register's low word keeps its high word (20_memory.md R89). -/
def withLo (x : Word64) (v : Word32) : Word64 := x.extractLsb' 32 32 ++ v

/-- A write of a 64-bit register's high word keeps its low word (20_memory.md R89). -/
def withHi (x : Word64) (v : Word32) : Word64 := v ++ x.extractLsb' 0 32

/-- A write of a register other than CMD (20_memory.md R86, R89 to R95): it changes only the register it
names, or nothing (read-only, reserved, an illegal value of a WARL register). -/
def writeReg (r : WindowReg) (v : Word32) (s : State) : State :=
  match r with
  | .arg0Lo => { s with arg0 := withLo s.arg0 v }
  | .arg0Hi => { s with arg0 := withHi s.arg0 v }
  | .arg1Lo => { s with arg1 := withLo s.arg1 v }
  | .arg1Hi => { s with arg1 := withHi s.arg1 v }
  | .ilen => if v.toNat ≤ s.params.vmax then { s with ilen := v } else s
  | .bsel => if legalBsel s.params.nbs v.toNat then { s with bsel := v.setWidth 5 } else s
  | .baddr => { s with baddr := v }
  | .bdata => writeBdata v s
  | .id => s
  | .caps => s
  | .vmaxr => s
  | .cmd => s
  | .status => s
  | .info0 => s
  | .info1 => s
  | .resLo => s
  | .resHi => s
  | .olen => s
  | .bctl _ => s
  | .blen _ => s
  | .bvlen _ => s
  | .reserved => s

end Sys2Proof.Machine
end

