-- ==== Sys2Proof/Machine/Bus.lean ====
section
/-! DEFINITION. Command execution on a CMD write (30_encoding.md R126 to R128) and the events of the bus
port and the reset input (20_memory.md R80 to R86, 70_reset_and_hazards.md R290). -/

namespace Sys2Proof.Machine

/-- The ILLEGAL fault of a command word (30_encoding.md R127). -/
def illegalWord (w : Word32) (s : State) : Result := raiseFault .illegal w.toNat 0 s

/-- A host write of `w` to CMD (30_encoding.md R126): ignored while FAULT is 1 (R128), the ILLEGAL fault
for an illegal word (R127), else the command. -/
def runCommand (w : Word32) (s : State) : Result :=
  if s.status.fault then .next s
  else
    match decode w with
    | .error _ => illegalWord w s
    | .ok i => if i.wellFormed s.params.nbs then exec i s else illegalWord w s

/-- `MemWrite(a, 4, v)` (00_scope.md R18, 20_memory.md R83 to R95). A CMD write completes with its command
(R84). -/
def memWrite (a : Offset) (v : Word32) (s : State) : Result :=
  if aligned a then
    if windowReg a = .cmd then runCommand v s else .next (writeReg (windowReg a) v s)
  else .refused .misaligned

/-- One event of the outside world, with the bus port's answer to it (20_memory.md R80, R84). While a
command runs the write's answer is already set; the step is atomic, so nobody sees it earlier. -/
def serve (e : HostEvent) (s : State) : Result :=
  match e with
  | .read a => memRead a s
  | .write a v => memWrite a v { s with reply := some .written }
  | .resetPulse => .next (resetBlock s)

/-- Nothing pending: the block keeps its state (60_exceptions.md R272) and `bus_ack` is 0. -/
def idle (s : State) : State := { s with reply := none }

/-- Take the next event of the outside world, the oldest first (20_memory.md R85). -/
def takeEvent (s : State) : Result :=
  match s.host with
  | [] => .next (idle s)
  | e :: rest => serve e { s with host := rest }

/-- Put a host write of the word `w` to CMD before everything the outside world still does. -/
def offerCommand (w : Word32) (s : State) : State :=
  { s with host := .write (offsetOf .cmd) w :: s.host }

end Sys2Proof.Machine
end

