-- ==== Sys2Proof/Machine/Step.lean ====
section
/-! DEFINITION. One step: one bus access or reset pulse, atomic (20_memory.md R80, R84, R85). -/

namespace Sys2Proof.Machine

/-- One step of the block. -/
def step (s : State) : Host.Outcome State Fault Refusal := takeEvent s

/-- `s` with the host about to write the command word `w` to CMD. BFX fetches nothing (10_state.md R45): a
command runs when the host writes it, so "where step fetches its next instruction" is the head of `host`
(assumption log 2). A block whose FAULT is 1 ignores the write, as 30_encoding.md R128 says. -/
def State.withFetchWord (s : State) (nbits w : Nat) : State :=
  offerCommand (BitVec.ofNat 32 (w % 2 ^ nbits)) s

end Sys2Proof.Machine
end

