-- ==== Sys2Proof/Machine/Assembler.lean ====
section
/-! DEFINITION. The written form of commands (30_encoding.md R131): a mnemonic, then its register fields
`b<n>` with n in decimal, destination first. Text is a list of characters. -/

namespace Sys2Proof.Machine

/-- The mnemonic of a command (30_encoding.md R124). -/
def mnemonicText : Instr → List Char
  | .loadbs _ => ['L', 'O', 'A', 'D', 'B', 'S']
  | .nullbs _ => ['N', 'U', 'L', 'L', 'B', 'S']
  | .newbs _ => ['N', 'E', 'W', 'B', 'S']
  | .u2b => ['U', '2', 'B']
  | .updv _ => ['U', 'P', 'D', 'V']
  | .trunc _ => ['T', 'R', 'U', 'N', 'C']
  | .getbit _ => ['G', 'E', 'T', 'B', 'I', 'T']
  | .maxbit _ => ['M', 'A', 'X', 'B', 'I', 'T']
  | .touint _ => ['T', 'O', 'U', 'I', 'N', 'T']
  | .fromuint _ => ['F', 'R', 'O', 'M', 'U', 'I', 'N', 'T']
  | .adduint _ => ['A', 'D', 'D', 'U', 'I', 'N', 'T']
  | .subbs _ _ => ['S', 'U', 'B', 'B', 'S']

/-- A register field, `b<n>` (30_encoding.md R131). -/
def regText (r : RegIdx) : List Char := 'b' :: Nat.toDigits 10 r.toNat

/-- The register fields a command writes out, destination first (30_encoding.md R131). -/
def operandRegs (i : Instr) : List RegIdx := i.rd?.toList ++ i.rs?.toList

/-- Register fields separated by a comma and a blank. -/
def regListText : List RegIdx → List Char
  | [] => []
  | [r] => regText r
  | r :: rest => regText r ++ [',', ' '] ++ regListText rest

/-- The written form of a command (30_encoding.md R131). -/
def commandText (i : Instr) : List Char :=
  match operandRegs i with
  | [] => mnemonicText i
  | regs => mnemonicText i ++ ' ' :: regListText regs

/-- Blanks and commas separate the parts of a command (assumption log 17: the spec shows one form and
says nothing of other spacing, DESIGN CHOICE). -/
def isSeparator (c : Char) : Bool := c == ' ' || c == ','

/-- The parts of a command text; `part` holds the characters of the part being read. -/
def textParts (part : List Char) : List Char → List (List Char)
  | [] => if part.isEmpty then [] else [part]
  | c :: rest =>
    if isSeparator c then (if part.isEmpty then textParts [] rest else part :: textParts [] rest)
    else textParts (part ++ [c]) rest

/-- A decimal number, at least one digit. Leading zeros are taken, so `b01` is `b1` (30_encoding.md R131 says only
"with n in decimal", DESIGN CHOICE, assumption log 17). -/
def decimalValue : List Char → Option Nat
  | [] => none
  | cs => if cs.all Char.isDigit then some (cs.foldl (fun n c => n * 10 + (c.toNat - '0'.toNat)) 0) else none

/-- A register field `b<n>`, n below 16 (30_encoding.md R131, R120). A capital `B` is none: R131 makes only mnemonics
case-insensitive (DEDUCED, assumption log 17). -/
def parseReg : List Char → Option RegIdx
  | 'b' :: digits =>
    match decimalValue digits with
    | some n => if n < 16 then some (BitVec.ofNat 4 n) else none
    | none => none
  | _ => none

/-- The register fields in order, or none if one is not a register field. -/
def parseRegs : List (List Char) → Option (List RegIdx)
  | [] => some []
  | p :: rest =>
    match parseReg p, parseRegs rest with
    | some r, some rs => some (r :: rs)
    | _, _ => none

/-- A command of each form with the given register fields, in the order of 30_encoding.md R131. -/
def formsOf : List RegIdx → List Instr
  | [] => [.u2b]
  | [r] =>
    [.loadbs r, .nullbs r, .newbs r, .updv r, .trunc r, .getbit r, .maxbit r, .touint r, .fromuint r,
      .adduint r]
  | [d, r] => [.subbs d r]
  | _ => []

/-- Read a command's written form; mnemonics are case-insensitive (30_encoding.md R131). -/
def assemble (text : List Char) : Option Instr :=
  match textParts [] text with
  | [] => none
  | m :: fields =>
    match parseRegs fields with
    | none => none
    | some regs =>
      (formsOf regs).find? fun i => decide (m.map Char.toUpper = mnemonicText i)

end Sys2Proof.Machine
end

