-- ==== Sys2Proof/Machine/HostProgram.lean ====
section
/-! DEFINITION. Host programs in the notation of 30_encoding.md R132 and its pseudo-instructions (R133). "The
host is not part of the block": this is a layer OVER the block's step, one bus access at a time. Nothing of
the block depends on it. -/

namespace Sys2Proof.Machine

/-- A host scratch register r0 to r7 (30_encoding.md R132). -/
abbrev HostReg := BitVec 3

/-- `V`: an immediate or a host register (30_encoding.md R132). -/
inductive HostVal where
  | imm (v : Word32)
  | reg (x : HostReg)
deriving DecidableEq, Repr

/-- The host operations (30_encoding.md R132). A label is a number; NAME is a window offset. -/
inductive HostOp where
  /-- `sw V, NAME`. -/
  | sw (v : HostVal) (a : Offset)
  /-- `lw rX, NAME`. -/
  | lw (x : HostReg) (a : Offset)
  /-- `li rX, imm`. -/
  | li (x : HostReg) (imm : Word32)
  /-- `addi rX, rY, imm`. -/
  | addi (x y : HostReg) (imm : Word32)
  /-- `beq rX, V, L`. -/
  | beq (x : HostReg) (v : HostVal) (l : Nat)
  /-- `bne rX, V, L`. -/
  | bne (x : HostReg) (v : HostVal) (l : Nat)
  /-- `L:`. -/
  | label (l : Nat)
  /-- `halt`. -/
  | halt
deriving DecidableEq, Repr

/-- A host with its program in front of a block. -/
structure HostRun where
  /-- The host program. -/
  prog : List HostOp
  /-- The next host operation's index. -/
  pc : Nat
  /-- r0 to r7. -/
  regs : Vector Word32 8
  /-- `halt` has been reached. -/
  halted : Bool
  /-- The block the host drives. -/
  block : State
deriving DecidableEq, Repr

/-- Why a host run stops other than by `halt` (assumption log 16). -/
inductive HostStop where
  /-- The block's step met a model fault. Safe. -/
  | fault (f : Fault)
  /-- The block's step was refused. Safe. -/
  | refused (r : Refusal)
  /-- A branch to a label the program does not have. Safe. -/
  | noLabel
  /-- The program ended without `halt`. Safe. -/
  | noOperation
deriving DecidableEq, Repr

/-- A host in front of a block in its reset state, every scratch register 0 (assumption log 16). -/
def hostStart (prog : List HostOp) (block : State) : HostRun :=
  { prog := prog, pc := 0, regs := Vector.replicate 8 0, halted := false, block := block }

/-- A scratch register; r0 is always 0 (30_encoding.md R132). -/
def HostRun.reg (h : HostRun) (x : HostReg) : Word32 := if x = 0 then 0 else h.regs[x.toNat]'(x.isLt)

/-- `rX <- v`; a write of r0 is discarded (30_encoding.md R132). -/
def HostRun.setReg (h : HostRun) (x : HostReg) (v : Word32) : HostRun :=
  if x = 0 then h else { h with regs := h.regs.set x.toNat v x.isLt }

/-- The value of `V` (30_encoding.md R132). -/
def HostRun.value (h : HostRun) : HostVal → Word32
  | .imm v => v
  | .reg x => h.reg x

/-- The index of a label in a program: of the first one, where a program holds the label twice (30_encoding.md
R132 says nothing of that, DESIGN CHOICE, assumption log 16). -/
def labelIndex (l : Nat) : List HostOp → Option Nat
  | [] => none
  | op :: rest => if op = .label l then some 0 else (labelIndex l rest).map (· + 1)

/-- The next operation in line. -/
def HostRun.advance (h : HostRun) : HostRun := { h with pc := h.pc + 1 }

/-- One bus event of the host, through the block's own step. -/
def HostRun.access (h : HostRun) (e : HostEvent) : Except HostStop HostRun :=
  match step { h.block with host := e :: h.block.host } with
  | .next b => .ok { h with block := b }
  | .fault f => .error (.fault f)
  | .refused r => .error (.refused r)

/-- The word the last read put on the bus. -/
def HostRun.readWord (h : HostRun) : Word32 :=
  match h.block.reply with
  | some (.data v) => v
  | some .written => 0
  | none => 0

/-- A branch: to the label if taken, else the next operation (30_encoding.md R132). -/
def HostRun.branch (h : HostRun) (taken : Bool) (l : Nat) : Except HostStop HostRun :=
  if taken then
    match labelIndex l h.prog with
    | some n => .ok { h with pc := n }
    | none => .error .noLabel
  else .ok h.advance

/-- One host operation (30_encoding.md R132). -/
def hostOp (h : HostRun) : HostOp → Except HostStop HostRun
  | .sw v a =>
    match h.access (.write a (h.value v)) with
    | .ok h' => .ok h'.advance
    | .error e => .error e
  | .lw x a =>
    match h.access (.read a) with
    | .ok h' => .ok (h'.setReg x h'.readWord).advance
    | .error e => .error e
  | .li x imm => .ok (h.setReg x imm).advance
  | .addi x y imm => .ok (h.setReg x (h.reg y + imm)).advance
  | .beq x v l => h.branch (decide (h.reg x = h.value v)) l
  | .bne x v l => h.branch (!decide (h.reg x = h.value v)) l
  | .label _ => .ok h.advance
  | .halt => .ok { h with halted := true }

/-- One step of the host; a halted host stays as it is (assumption log 16). -/
def hostStep (h : HostRun) : Except HostStop HostRun :=
  if h.halted then .ok h
  else
    match h.prog[h.pc]? with
    | none => .error .noOperation
    | some op => hostOp h op

/-- `n` steps of the host. -/
def hostRun : Nat → HostRun → Except HostStop HostRun
  | 0, h => .ok h
  | n + 1, h =>
    match hostStep h with
    | .ok h' => hostRun n h'
    | .error e => .error e

/-- `sw imm, NAME`. -/
def store (v : Word32) (r : WindowReg) : HostOp := .sw (.imm v) (offsetOf r)

/-- `ISSUE <command>` (30_encoding.md R133). -/
def issue (i : Instr) : List HostOp := [store (encode i) .cmd]

/-- `SETARG0 v` (30_encoding.md R133). -/
def setArg0 (v : Word64) : List HostOp :=
  [store (v.extractLsb' 0 32) .arg0Lo, store (v.extractLsb' 32 32) .arg0Hi]

/-- `SETARG1 v` (30_encoding.md R133). -/
def setArg1 (v : Word64) : List HostOp :=
  [store (v.extractLsb' 0 32) .arg1Lo, store (v.extractLsb' 32 32) .arg1Hi]

/-- `PUTBYTES x0, .., x(n-1)` (30_encoding.md R133). -/
def putBytes (xs : List Byte) : List HostOp :=
  [store 16 .bsel, store 0 .baddr] ++ xs.map (fun x => store (x.setWidth 32) .bdata)
    ++ [store (BitVec.ofNat 32 xs.length) .ilen]

/-- `GETBYTES sel, n`, into the given host registers, one a byte (30_encoding.md R133). -/
def getBytes (sel : Word32) (dest : List HostReg) : List HostOp :=
  [store sel .bsel, store 0 .baddr] ++ dest.map fun x => .lw x (offsetOf .bdata)

/-- `GETRES rX, rY` (30_encoding.md R133). -/
def getRes (x y : HostReg) : List HostOp := [.lw x (offsetOf .resLo), .lw y (offsetOf .resHi)]

/-- `NEWBITSTRING bD, v, L` (30_encoding.md R133). -/
def newBitString (rd : RegIdx) (v L : Word64) : List HostOp := setArg0 v ++ setArg1 L ++ issue (.newbs rd)

/-- `LITERAL bD, [x0..x(n-1)], L` (30_encoding.md R133). -/
def literal (rd : RegIdx) (xs : List Byte) (L : Word64) : List HostOp :=
  putBytes xs ++ setArg1 L ++ issue (.loadbs rd)

/-- `SLICE bD, bS, start, L` (30_encoding.md R133). -/
def slice (rd rs : RegIdx) (start L : Word64) : List HostOp :=
  setArg0 start ++ setArg1 L ++ issue (.subbs rd rs)

/-- The minimal boot sequence, the four reads of 70_reset_and_hazards.md R295 and nothing after them, so that
further host operations can follow it. -/
def bootSequence : List HostOp :=
  [.lw 1 (offsetOf .id), .lw 2 (offsetOf .caps), .lw 3 (offsetOf .vmaxr), .lw 4 (offsetOf .status)]

end Sys2Proof.Machine
end

