-- ==== Sys2Proof/Safety.lean ====
section
/-! DEFINITION. The terms claims are stated in: the state invariant, what a command leaves alone, the three
outcomes, the accesses that meet no stop, and the spec's own tables read off independently of the model. -/

namespace Sys2Proof.Machine

/-- STATUS agrees with itself: success, invalid argument or fault, with a cause of that kind
(60_exceptions.md R260, R265). -/
abbrev Status.Legal (st : Status) : Prop :=
  (st.err = false ∧ st.fault = false ∧ st.cause = .ok) ∨
  (st.err = true ∧ st.fault = false ∧ st.cause.isInvalid = true) ∨
  (st.err = false ∧ st.fault = true ∧ st.cause.isFault = true)

/-- What every reachable state satisfies. I1 is not part of it (10_state.md R34). -/
structure State.Inv (s : State) : Prop where
  /-- The build parameters are legal (00_scope.md R10). -/
  paramsLegal : s.params.Legal
  /-- A null register has LEN 0 and VAL [] (10_state.md R33). -/
  nullClean : ∀ r : RegIdx, (s.bs r).p = false → s.bs r = BitString.null
  /-- Registers at and above NBS do not exist: they stay null (assumption log 9). -/
  absentNull : ∀ r : RegIdx, s.params.nbs ≤ r.toNat → s.bs r = BitString.null
  /-- VLEN is at most VMAX (10_state.md R32). -/
  vlenFits : ∀ r : RegIdx, (s.bs r).vlen ≤ s.params.vmax
  /-- ILEN is at most VMAX (10_state.md R32). -/
  ilenFits : s.ilen.toNat ≤ s.params.vmax
  /-- OLEN is at most VMAX (10_state.md R32). -/
  olenFits : s.olen ≤ s.params.vmax
  /-- BSEL holds a legal value (20_memory.md R94). -/
  bselLegal : legalBsel s.params.nbs s.bsel.toNat = true
  /-- IBUF's cell list is in canonical form. -/
  ibufWf : s.ibuf.wf = true
  /-- IBUF has VMAX cells (10_state.md R40). -/
  ibufBelow : ∀ a, (s.ibuf.read a).isSome = true → a < s.params.vmax
  /-- STATUS is one of the three outcomes (60_exceptions.md R265). -/
  statusLegal : s.status.Legal

/-- What no command writes: the parameters, ARG0, ARG1, every byte of IBUF, ILEN, BSEL, BADDR, and the
model's own `host` and `reply` (10_state.md R39, R40, R46). -/
structure InputsKept (s t : State) : Prop where
  params : t.params = s.params
  arg0 : t.arg0 = s.arg0
  arg1 : t.arg1 = s.arg1
  ibuf : ∀ a, t.ibuf.read a = s.ibuf.read a
  ilen : t.ilen = s.ilen
  bsel : t.bsel = s.bsel
  baddr : t.baddr = s.baddr
  host : t.host = s.host
  reply : t.reply = s.reply

/-- Every bit-string register is unchanged. -/
def BankKept (s t : State) : Prop := ∀ r, t.bs r = s.bs r

/-- Every bit-string register but `r` is unchanged. -/
def BankKeptBut (r : RegIdx) (s t : State) : Prop := ∀ q, q ≠ r → t.bs q = s.bs q

/-- The success outcome in STATUS, INFO0, INFO1 (60_exceptions.md R262). -/
structure SuccessOutcome (s t : State) : Prop where
  cause : t.status.cause = .ok
  err : t.status.err = false
  fault : t.status.fault = s.status.fault
  info0 : t.info0 = 0
  info1 : t.info1 = 0

/-- The invalid-argument outcome in STATUS, INFO0, INFO1 (60_exceptions.md R263). -/
structure InvalidOutcome (c : Cause) (i0 i1 : Word32) (s t : State) : Prop where
  cause : t.status.cause = c
  err : t.status.err = true
  fault : t.status.fault = s.status.fault
  info0 : t.info0 = i0
  info1 : t.info1 = i1

/-- The fault outcome in STATUS, INFO0, INFO1 (60_exceptions.md R264). -/
structure FaultOutcome (c : Cause) (i0 i1 : Word32) (t : State) : Prop where
  cause : t.status.cause = c
  err : t.status.err = false
  fault : t.status.fault = true
  info0 : t.info0 = i0
  info1 : t.info1 = i1

/-- `exec i s` answers a next state by the success outcome, keeps every input, and `effect` holds of the
state it answers. -/
def Succeeds (i : Instr) (s : State) (effect : State → Prop) : Prop :=
  ∃ t, exec i s = .next t ∧ SuccessOutcome s t ∧ InputsKept s t ∧ effect t

/-- `exec i s` answers a next state by the invalid-argument outcome, keeps every input and every
bit-string register, and `effect` holds of the state it answers. -/
def RejectsArgument (i : Instr) (s : State) (c : Cause) (i0 i1 : Word32) (effect : State → Prop) : Prop :=
  ∃ t, exec i s = .next t ∧ InvalidOutcome c i0 i1 s t ∧ InputsKept s t ∧ BankKept s t ∧ effect t

/-- A precise fault: `exec i s` answers a next state by the fault outcome and nothing but STATUS, INFO0
and INFO1 changes (60_exceptions.md R264(a)). -/
def RaisesFault (i : Instr) (s : State) (c : Cause) (i0 i1 : Word32) : Prop :=
  ∃ t, exec i s = .next t ∧ FaultOutcome c i0 i1 t ∧ InputsKept s t ∧ BankKept s t ∧
    t.res = s.res ∧ t.obuf = s.obuf

/-- `len = ARG1[31:0]` as a number (30_encoding.md R125). -/
def lenArg (s : State) : Nat := s.arg1.toNat % 2 ^ 32

/-- `start = ARG0[31:0]` as a number (30_encoding.md R125). -/
def startArg (s : State) : Nat := s.arg0.toNat % 2 ^ 32

/-- `n` bytes whose big-endian integer is `v`; on n bytes that integer fixes every byte. -/
def BytesOf (xs : List Byte) (n v : Nat) : Prop := xs.length = n ∧ beval xs = v

/-- SUBBS meets a byte that is not stored at the k-th bit it reads (44_slice.md R241). -/
def SliceBitMissing (b : BitString) (start k : Nat) : Prop :=
  start + k < b.len.toNat ∧ b.vlen ≤ (start + k) / 8

/-- `IBUF[0 .. ILEN-1]` is the byte sequence `xs`, cell by cell. -/
def CandidateIs (s : State) (xs : List Byte) : Prop :=
  xs.length = s.ilen.toNat ∧ ∀ j, j < s.ilen.toNat → s.ibuf.read j = xs[j]?

/-- Some cell of `IBUF[0 .. ILEN-1]` has not been written since reset. -/
def CandidateUnwritten (s : State) : Prop := ∃ j, j < s.ilen.toNat ∧ s.ibuf.read j = none

/-- The opcodes that use the `rd` field (30_encoding.md R124). -/
def opcUsesRd (opc : Nat) : Bool := opc == 0x01 || opc == 0x02 || opc == 0x03 || opc == 0x0C

/-- The opcodes that use the `rs` field (30_encoding.md R124). -/
def opcUsesRs (opc : Nat) : Bool := decide (0x05 ≤ opc) && decide (opc ≤ 0x0C)

/-- The conditions of 30_encoding.md R127 on the number `w`, by arithmetic on it. -/
def WordIllegal (nbs w : Nat) : Prop :=
  w / 2 ^ 16 ≠ 0 ∨ w % 256 = 0 ∨ 0x0D ≤ w % 256 ∨
  (opcUsesRd (w % 256) = false ∧ w / 2 ^ 8 % 16 ≠ 0) ∨
  (opcUsesRs (w % 256) = false ∧ w / 2 ^ 12 % 16 ≠ 0) ∨
  (opcUsesRd (w % 256) = true ∧ nbs ≤ w / 2 ^ 8 % 16) ∨
  (opcUsesRs (w % 256) = true ∧ nbs ≤ w / 2 ^ 12 % 16)

/-- The offsets the register map reserves in a block of `nbs` registers (20_memory.md R87, R92). -/
def OffsetReserved (nbs a : Nat) : Prop :=
  a = 0x01C ∨ (0x038 ≤ a ∧ a ≤ 0x03C) ∨ (0x048 ≤ a ∧ a ≤ 0x04C) ∨ (0x05C ≤ a ∧ a ≤ 0x0FC) ∨
  (0x100 ≤ a ∧ a < 0x200 ∧ (a % 0x10 = 0xC ∨ nbs ≤ (a - 0x100) / 0x10)) ∨ 0x200 ≤ a

/-- The next event of the outside world is an access at a word-aligned offset, or no access. -/
def NextAligned (s : State) : Prop :=
  match s.host with
  | .read a :: _ => a.toNat % 4 = 0
  | .write a _ :: _ => a.toNat % 4 = 0
  | .resetPulse :: _ => True
  | [] => True

/-- No cell a command or the byte window could reach is unwritten: the candidate sequence, and the cell
BADDR names when BSEL selects IBUF. -/
def IbufReady (s : State) : Prop :=
  (∀ j, j < s.ilen.toNat → s.ibuf.read j ≠ none) ∧
  (s.bsel.toNat = 16 → s.baddr.toNat < s.params.vmax → s.ibuf.read s.baddr.toNat ≠ none)

/-- The table of cause codes (60_exceptions.md R260), as numbers. -/
def causeNumber : Cause → Nat
  | .ok => 0
  | .null => 1
  | .length => 2
  | .zeroLen => 3
  | .range => 4
  | .illegal => 8
  | .nullRcv => 9
  | .byteIdx => 10
  | .width => 11
  | .invariant => 12
  | .capacity => 13
  | .zeroSlice => 14

/-- A faulted block stays faulted over a step, unless the step is a reset pulse (60_exceptions.md R264(b), (d)). -/
def FaultLeftOnlyByReset (s : State) : Prop :=
  ∀ t, step s = .next t → s.status.fault = true →
    t.status.fault = true ∨ ∃ rest, s.host = .resetPulse :: rest

/-- Everything but the outcome registers STATUS, INFO0, INFO1 is as before. -/
def OnlyOutcomeChanged (s t : State) : Prop :=
  InputsKept s t ∧ BankKept s t ∧ t.res = s.res ∧ t.obuf = s.obuf

end Sys2Proof.Machine
end

