-- ==== Sys2Proof/Certificates/Slice0/Obligations.lean ====
section
/-! DEFINITION. The statements of this row, each from the numbered rules of spec/. -/

open Sys2Proof Sys2Proof.Machine

/-! ## Decoding and encoding -/

/-- Every command is read back from its word (30_encoding.md R120, R124, R130). -/
def Obligations.DecodeInvertsEncode : Prop :=
  ∀ i : Instr, decode (encode i) = .ok i

/-- A word that decodes is the word of the command it decodes to: no bit of a legal word is ignored and
no two words are one command (30_encoding.md R129, R130). -/
def Obligations.EncodeInvertsDecode : Prop :=
  ∀ (w : Word32) (i : Instr), decode w = .ok i → encode i = w

/-- The table of 30_encoding.md R131, by arithmetic on the register numbers. -/
def Obligations.CommandWords : Prop :=
  (∀ d : RegIdx, (encode (.loadbs d)).toNat = 0x00000001 + d.toNat * 0x100) ∧
  (∀ d : RegIdx, (encode (.nullbs d)).toNat = 0x00000002 + d.toNat * 0x100) ∧
  (∀ d : RegIdx, (encode (.newbs d)).toNat = 0x00000003 + d.toNat * 0x100) ∧
  (encode .u2b).toNat = 0x00000004 ∧
  (∀ r : RegIdx, (encode (.updv r)).toNat = 0x00000005 + r.toNat * 0x1000) ∧
  (∀ r : RegIdx, (encode (.trunc r)).toNat = 0x00000006 + r.toNat * 0x1000) ∧
  (∀ r : RegIdx, (encode (.getbit r)).toNat = 0x00000007 + r.toNat * 0x1000) ∧
  (∀ r : RegIdx, (encode (.maxbit r)).toNat = 0x00000008 + r.toNat * 0x1000) ∧
  (∀ r : RegIdx, (encode (.touint r)).toNat = 0x00000009 + r.toNat * 0x1000) ∧
  (∀ r : RegIdx, (encode (.fromuint r)).toNat = 0x0000000A + r.toNat * 0x1000) ∧
  (∀ r : RegIdx, (encode (.adduint r)).toNat = 0x0000000B + r.toNat * 0x1000) ∧
  (∀ d r : RegIdx, (encode (.subbs d r)).toNat = 0x0000000C + d.toNat * 0x100 + r.toNat * 0x1000)

/-- Words of the spec's examples decode to their commands (95_test_vectors.md V1 to V5, P3). -/
def Obligations.SampleWordsDecode : Prop :=
  decode 0x00000301 = .ok (.loadbs 3) ∧ decode 0x00000202 = .ok (.nullbs 2) ∧
  decode 0x00000103 = .ok (.newbs 1) ∧ decode 0x00000004 = .ok .u2b ∧
  decode 0x00001005 = .ok (.updv 1) ∧ decode 0x00001006 = .ok (.trunc 1) ∧
  decode 0x00003007 = .ok (.getbit 3) ∧ decode 0x00000008 = .ok (.maxbit 0) ∧
  decode 0x00002009 = .ok (.touint 2) ∧ decode 0x0000100A = .ok (.fromuint 1) ∧
  decode 0x0000100B = .ok (.adduint 1) ∧ decode 0x0000210C = .ok (.subbs 1 2)

/-- A word is illegal exactly under the conditions of 30_encoding.md R127: those conditions hold, or it
decodes to a command whose register fields exist. -/
def Obligations.IllegalWordsExactly : Prop :=
  ∀ (nbs : Nat) (w : Word32),
    WordIllegal nbs w.toNat ↔ ¬ ∃ i, decode w = .ok i ∧ i.wellFormed nbs = true

/-- A command's written form assembles to that command (30_encoding.md R131). -/
def Obligations.WrittenFormAssembles : Prop :=
  ∀ i : Instr, assemble (commandText i) = some i

/-! ## The step -/

/-- A CMD write of a legal word on a block that is not faulted IS the command, on the state with the access
taken off the host's list and acknowledged (30_encoding.md R126). -/
def Obligations.StepRunsDecodedCommand : Prop :=
  ∀ (s : State) (w : Word32) (i : Instr) (rest : List HostEvent),
    s.host = .write 0x00C w :: rest → s.status.fault = false →
    decode w = .ok i → i.wellFormed s.params.nbs = true →
    step s = exec i { s with host := rest, reply := some .written }

/-- An illegal word raises the ILLEGAL fault, cause 8, and changes nothing else, the all-zero word is illegal, and
the fault is sticky (30_encoding.md R127). -/
def Obligations.IllegalWordFaults : Prop :=
  (∀ (s : State) (w : Word32) (rest : List HostEvent),
    s.host = .write 0x00C w :: rest → s.status.fault = false → WordIllegal s.params.nbs w.toNat →
    step s = .next { s with
      host := rest, reply := some .written,
      status := { cause := .illegal, err := false, fault := true }, info0 := w, info1 := 0 }) ∧
  (Status.word { cause := .illegal, err := false, fault := true }).toNat = 8 + 0x200 ∧
  (∀ nbs, WordIllegal nbs 0) ∧
  (∀ s, FaultLeftOnlyByReset s)

/-- While FAULT is 1 a write to CMD completes on the bus and has no other effect, whatever the word, and only
reset clears FAULT (30_encoding.md R128). -/
def Obligations.FaultedBlockIgnoresCommands : Prop :=
  (∀ (s : State) (w : Word32) (rest : List HostEvent),
    s.host = .write 0x00C w :: rest → s.status.fault = true →
    step s = .next { s with host := rest, reply := some .written }) ∧
  (∀ s, FaultLeftOnlyByReset s)

/-- The reset state (10_state.md R50) of a block with any parameters, and the constants ID, CAPS and VMAXR (R47). -/
def Obligations.ResetStateValues : Prop :=
  ∀ p : Params,
    (∀ r, (State.resetFor p).bs r = { p := false, len := 0, val := [] }) ∧
    (State.resetFor p).arg0 = 0 ∧ (State.resetFor p).arg1 = 0 ∧ (State.resetFor p).res = 0 ∧
    (∀ j, (State.resetFor p).ibuf.read j = none) ∧ (State.resetFor p).ilen = 0 ∧
    (State.resetFor p).obuf = [] ∧ (State.resetFor p).status.word = 0 ∧
    (State.resetFor p).info0 = 0 ∧ (State.resetFor p).info1 = 0 ∧
    (State.resetFor p).bsel = 0 ∧ (State.resetFor p).baddr = 0 ∧
    (State.resetFor p).params = p ∧ State.reset = State.resetFor State.reset.params ∧
    idWord = 0x42465801 ∧
    (p.Legal → (vmaxWord p).toNat = p.vmax ∧
      (capsWord p).toNat = p.nbs + 64 * 2 ^ 8 + (if p.u2bMask then 1 else 0) * 2 ^ 16 +
        (match p.subOrder with | .reverse => 0 | .byteMsbBitLsb => 1 | .straight => 2) * 2 ^ 17)

/-- An `rst_n` pulse, in any state, faulted or not, leaves every piece of the block's state at its reset value; the
parameters and the host's further accesses stay (70_reset_and_hazards.md R290, R291). The clause `t.reply = none` is
the model's choice and no rule of the spec (assumption log 3); that the pulse is one event is log 8. -/
def Obligations.ResetPulseResets : Prop :=
  ∀ (s : State) (rest : List HostEvent), s.host = .resetPulse :: rest →
    ∃ t, step s = .next t ∧ (∀ r, t.bs r = BitString.null) ∧ t.arg0 = 0 ∧ t.arg1 = 0 ∧ t.res = 0 ∧
      (∀ j, t.ibuf.read j = none) ∧ t.ilen = 0 ∧ t.obuf = [] ∧ t.status.word = 0 ∧
      t.info0 = 0 ∧ t.info1 = 0 ∧ t.bsel = 0 ∧ t.baddr = 0 ∧
      t.params = s.params ∧ t.host = rest ∧ t.reply = none

/-- Every step keeps the invariant of the state, from every state that has it. -/
def Obligations.StepKeepsInvariant : Prop :=
  ∀ s t : State, s.Inv → step s = .next t → t.Inv

/-- The reset state has the invariant, for every legal choice of the parameters. -/
def Obligations.ResetHasInvariant : Prop :=
  State.reset.Inv ∧ ∀ p : Params, p.Legal → (State.resetFor p).Inv

/-- A fault is left only by reset, and until then STATUS, INFO0 and INFO1 keep the first fault's values
(60_exceptions.md R264 (b), (d)). -/
def Obligations.FaultIsSticky : Prop :=
  ∀ s t : State, step s = .next t → s.status.fault = true →
    (t.status = s.status ∧ t.info0 = s.info0 ∧ t.info1 = s.info1) ∨
    ∃ rest, s.host = .resetPulse :: rest

/-- An access at an offset that is not a multiple of 4 has no step (20_memory.md R83). -/
def Obligations.MisalignedAccessRefused : Prop :=
  ∀ (s : State) (a : Offset) (v : Word32) (rest : List HostEvent), a.toNat % 4 ≠ 0 →
    (s.host = .read a :: rest → step s = .refused .misaligned) ∧
    (s.host = .write a v :: rest → step s = .refused .misaligned)

/-- Where the spec stops a model and nowhere else: a step always answers a next state when the next access is aligned
and no unwritten IBUF cell can be reached (60_exceptions.md R268, R269). -/
def Obligations.ReadyStepAnswersNext : Prop :=
  ∀ s : State, NextAligned s → IbufReady s → ∃ t, step s = .next t

/-- What a step that stops has met (60_exceptions.md R268, R269). -/
def Obligations.StopsOnlyWhereSpecStops : Prop :=
  ∀ s : State,
    (∀ r, step s = .refused r → r = .misaligned ∧ ¬ NextAligned s) ∧
    (step s = .fault .uninitIbuf → CandidateUnwritten s ∧
      ∃ w rest, s.host = .write 0x00C w :: rest ∧ s.status.fault = false ∧
        ((∃ rd, decode w = .ok (.loadbs rd)) ∨ (∃ rs, decode w = .ok (.updv rs)))) ∧
    (step s = .fault .uninitHostRead → s.ibuf.read s.baddr.toNat = none ∧
      ∃ rest, s.host = .read 0x058 :: rest)

/-! ## All commands -/

/-- No command writes ARG0, ARG1, IBUF, ILEN, BSEL or BADDR (10_state.md R39, R40, R46). -/
def Obligations.CommandsKeepInputs : Prop :=
  ∀ (i : Instr) (s t : State), exec i s = .next t → InputsKept s t

/-- The writers of RES (10_state.md R42), of OBUF (R41) and of each bit-string register (R31): a command that
does not name a register as `rd`, or as the `rs` of UPDV, TRUNC, FROMUINT or ADDUINT, leaves it unchanged. -/
def Obligations.OutputsWrittenOnlyByTheirCommands : Prop :=
  ∀ (i : Instr) (s t : State), exec i s = .next t →
    (t.res ≠ s.res → ∃ rs, i = .getbit rs ∨ i = .maxbit rs ∨ i = .touint rs) ∧
    (t.obuf ≠ s.obuf → i = .u2b ∨ ∃ rs, i = .updv rs ∨ i = .trunc rs) ∧
    (∀ r, t.bs r ≠ s.bs r →
      i.rd? = some r ∨ i = .updv r ∨ i = .trunc r ∨ i = .fromuint r ∨ i = .adduint r)

/-- Each executed command ends in exactly one outcome, and the host reads 0x000, 0x100 + cause or
0x200 + cause (60_exceptions.md R265). -/
def Obligations.OutcomeIsOneOfThree : Prop :=
  ∀ (i : Instr) (s t : State), s.status.fault = false → exec i s = .next t →
    (t.status.err = false ∧ t.status.fault = false ∧ t.status.word = 0x000 ∧
      t.info0 = 0 ∧ t.info1 = 0) ∨
    (t.status.err = true ∧ t.status.fault = false ∧
      ∃ c : Nat, 1 ≤ c ∧ c ≤ 4 ∧ t.status.word.toNat = 0x100 + c) ∨
    (t.status.err = false ∧ t.status.fault = true ∧
      ∃ c : Nat, 9 ≤ c ∧ c ≤ 14 ∧ t.status.word.toNat = 0x200 + c)

/-- A fault of a command is precise: nothing but STATUS, INFO0 and INFO1 changes (60_exceptions.md R264 (a)). -/
def Obligations.FaultsArePrecise : Prop :=
  ∀ (i : Instr) (s t : State), s.status.fault = false → exec i s = .next t → t.status.fault = true →
    OnlyOutcomeChanged s t

/-- The invalid-argument outcome changes no bit-string register, and of the outputs only OBUF (UPDV, TRUNC)
or RES, which becomes 0 (GETBIT) (60_exceptions.md R263). -/
def Obligations.InvalidArgumentKeepsRegisters : Prop :=
  ∀ (i : Instr) (s t : State), exec i s = .next t → t.status.err = true →
    BankKept s t ∧
    ((∃ rs, i = .updv rs ∨ i = .trunc rs) ∧ t.res = s.res ∨
     (∃ rs, i = .getbit rs) ∧ t.res = 0 ∧ t.obuf = s.obuf)

/-- No command other than NULLBS sets P to 0 (10_state.md R33). -/
def Obligations.OnlyNullbsMakesNull : Prop :=
  ∀ (i : Instr) (s t : State) (r : RegIdx), exec i s = .next t →
    (s.bs r).p = true → (t.bs r).p = false → i = .nullbs r

/-- I1 holds of the register a successful NEWBS, SUBBS, UPDV, TRUNC, FROMUINT or ADDUINT writes
(10_state.md R34). -/
def Obligations.SuccessEstablishesI1 : Prop :=
  ∀ (i : Instr) (r : RegIdx) (s t : State), exec i s = .next t → t.status.cause = .ok →
    (i = .newbs r ∨ (∃ rs, i = .subbs r rs) ∨ i = .updv r ∨ i = .trunc r ∨ i = .fromuint r ∨ i = .adduint r) →
    (t.bs r).I1

/-! ## Each command -/

/-- LOADBS (40_construct.md R151, R152). -/
def Obligations.LoadbsOperation : Prop :=
  ∀ (s : State) (rd : RegIdx),
    (∀ xs, CandidateIs s xs → Succeeds (.loadbs rd) s fun t =>
      (t.bs rd).p = true ∧ (t.bs rd).len.toNat = lenArg s ∧ (t.bs rd).val = xs ∧
      BankKeptBut rd s t ∧ t.res = s.res ∧ t.obuf = s.obuf) ∧
    (CandidateUnwritten s → exec (.loadbs rd) s = .fault .uninitIbuf)

/-- NULLBS (40_construct.md R154, R155), of a present and of a null register, and its word. -/
def Obligations.NullbsOperation : Prop :=
  ∀ rd : RegIdx,
    (∀ w : Word32, decode w = .ok (.nullbs rd) ↔ w.toNat = 0x00000002 + rd.toNat * 0x100) ∧
    ∀ s : State, Succeeds (.nullbs rd) s fun t =>
      t.bs rd = { p := false, len := 0, val := [] } ∧ BankKeptBut rd s t ∧ t.res = s.res ∧
      t.obuf = s.obuf

/-- NEWBS (40_construct.md R157, R158): `nbytes(len)` bytes whose integer is `value mod 2^len`, or
CAPACITY. -/
def Obligations.NewbsOperation : Prop :=
  ∀ (s : State) (rd : RegIdx),
    ((lenArg s + 7) / 8 ≤ s.params.vmax → Succeeds (.newbs rd) s fun t =>
      (t.bs rd).p = true ∧ (t.bs rd).len.toNat = lenArg s ∧
      BytesOf (t.bs rd).val ((lenArg s + 7) / 8) (s.arg0.toNat % 2 ^ lenArg s) ∧
      BankKeptBut rd s t ∧ t.res = s.res ∧ t.obuf = s.obuf) ∧
    (s.params.vmax < (lenArg s + 7) / 8 → RaisesFault (.newbs rd) s .capacity
      (BitVec.ofNat 32 ((lenArg s + 7) / 8)) (BitVec.ofNat 32 s.params.vmax))

/-- U2B (40_construct.md R160, R162) under both settings of U2B_MASK, and its word. -/
def Obligations.U2bOperation : Prop :=
  (∀ w : Word32, decode w = .ok .u2b ↔ w = 0x00000004) ∧
  ∀ s : State,
    ((lenArg s + 7) / 8 ≤ s.params.vmax → Succeeds .u2b s fun t =>
      (s.params.u2bMask = true →
        BytesOf t.obuf ((lenArg s + 7) / 8) (s.arg0.toNat % 2 ^ lenArg s)) ∧
      (s.params.u2bMask = false →
        BytesOf t.obuf ((lenArg s + 7) / 8) (s.arg0.toNat % 256 ^ ((lenArg s + 7) / 8))) ∧
      BankKept s t ∧ t.res = s.res) ∧
    (s.params.vmax < (lenArg s + 7) / 8 → RaisesFault .u2b s .capacity
      (BitVec.ofNat 32 ((lenArg s + 7) / 8)) (BitVec.ofNat 32 s.params.vmax))

/-- With U2B_MASK 1, U2B gives the bytes NEWBS stores for the same ARG0 and ARG1; with U2B_MASK 0 the two
agree exactly when the value kept on `nbytes(len)` bytes is below `2^len` (40_construct.md R160, R161; the last
sentence of R161 says "exactly when `value >= 2^len`" of the difference, which is true of the integer packed but not
of the bytes, assumption log 18). -/
def Obligations.U2bAgainstNewbs : Prop :=
  ∀ (s t u : State) (rd : RegIdx), exec .u2b s = .next t → exec (.newbs rd) s = .next u →
    t.status.cause = .ok → u.status.cause = .ok →
    (s.params.u2bMask = true → t.obuf = (u.bs rd).val) ∧
    (s.params.u2bMask = false →
      (t.obuf = (u.bs rd).val ↔ s.arg0.toNat % 2 ^ (8 * ((lenArg s + 7) / 8)) < 2 ^ lenArg s))

/-- UPDV (41_update.md R171, R172): its checks in order, then the replacement. -/
def Obligations.UpdvOperation : Prop :=
  ∀ (s : State) (rs : RegIdx),
    ((s.bs rs).p = false → RejectsArgument (.updv rs) s .null (BitVec.ofNat 32 rs.toNat) 0 fun t =>
      t.obuf = [] ∧ t.res = s.res) ∧
    ((s.bs rs).p = true → s.ilen.toNat ≠ ((s.bs rs).len.toNat + 7) / 8 →
      RejectsArgument (.updv rs) s .length s.ilen (BitVec.ofNat 32 (((s.bs rs).len.toNat + 7) / 8))
        fun t => t.obuf = (s.bs rs).val ∧ t.res = s.res) ∧
    (∀ xs, (s.bs rs).p = true → s.ilen.toNat = ((s.bs rs).len.toNat + 7) / 8 → CandidateIs s xs →
      Succeeds (.updv rs) s fun t =>
        t.bs rs = { p := true, len := (s.bs rs).len, val := xs } ∧ t.obuf = xs ∧
        BankKeptBut rs s t ∧ t.res = s.res) ∧
    ((s.bs rs).p = true → s.ilen.toNat = ((s.bs rs).len.toNat + 7) / 8 → CandidateUnwritten s →
      exec (.updv rs) s = .fault .uninitIbuf)

/-- TRUNC (41_update.md R177, R178): its checks in order, then every byte but the last as before and the
last one with its low `8*nbytes(LEN) - LEN` bits cleared. -/
def Obligations.TruncOperation : Prop :=
  ∀ (s : State) (rs : RegIdx),
    ((s.bs rs).p = false → RejectsArgument (.trunc rs) s .null (BitVec.ofNat 32 rs.toNat) 0 fun t =>
      t.obuf = [] ∧ t.res = s.res) ∧
    ((s.bs rs).p = true → (s.bs rs).len = 0 →
      RejectsArgument (.trunc rs) s .zeroLen 0 0 fun t => t.obuf = [] ∧ t.res = s.res) ∧
    ((s.bs rs).p = true → (s.bs rs).len ≠ 0 → (s.bs rs).val.length ≠ ((s.bs rs).len.toNat + 7) / 8 →
      RejectsArgument (.trunc rs) s .length (BitVec.ofNat 32 (s.bs rs).val.length)
        (BitVec.ofNat 32 (((s.bs rs).len.toNat + 7) / 8)) fun t => t.obuf = [] ∧ t.res = s.res) ∧
    (∀ front last, (s.bs rs).p = true → (s.bs rs).len ≠ 0 →
      (s.bs rs).val.length = ((s.bs rs).len.toNat + 7) / 8 → (s.bs rs).val = front ++ [last] →
      Succeeds (.trunc rs) s fun t =>
        (t.bs rs).p = true ∧ (t.bs rs).len = (s.bs rs).len ∧
        (∃ last' : Byte, (t.bs rs).val = front ++ [last'] ∧
          last'.toNat = last.toNat -
            last.toNat % 2 ^ (8 * (((s.bs rs).len.toNat + 7) / 8) - (s.bs rs).len.toNat)) ∧
        t.obuf = (t.bs rs).val ∧ BankKeptBut rs s t ∧ t.res = s.res)

/-- GETBIT (42_bitaccess.md R191, R192): the range check on the signed position, the byte index by VLEN. -/
def Obligations.GetbitOperation : Prop :=
  ∀ (s : State) (rs : RegIdx),
    ((s.bs rs).p = false → RaisesFault (.getbit rs) s .nullRcv (BitVec.ofNat 32 rs.toNat) 0) ∧
    ((s.bs rs).p = true → (s.arg0.toInt < 0 ∨ ((s.bs rs).len.toNat : Int) ≤ s.arg0.toInt) →
      RejectsArgument (.getbit rs) s .range (BitVec.ofNat 32 (s.arg0.toNat % 2 ^ 32))
        (BitVec.ofNat 32 (s.arg0.toNat / 2 ^ 32)) fun t => t.res = 0 ∧ t.obuf = s.obuf) ∧
    (∀ p : Nat, (s.bs rs).p = true → s.arg0.toInt = (p : Int) → p < (s.bs rs).len.toNat →
      (∀ x, p / 8 < (s.bs rs).val.length →
        (s.bs rs).val[(s.bs rs).val.length - 1 - p / 8]? = some x →
        Succeeds (.getbit rs) s fun t =>
          t.res.toNat = x.toNat / 2 ^ (p % 8) % 2 ∧ BankKept s t ∧ t.obuf = s.obuf) ∧
      ((s.bs rs).val.length ≤ p / 8 → RaisesFault (.getbit rs) s .byteIdx (BitVec.ofNat 32 p)
        (BitVec.ofNat 32 (s.bs rs).val.length)))

/-- MAXBIT (42_bitaccess.md R197, R198): the highest set position below LEN, or -1, or BYTEIDX at LEN-1
when a byte is missing. -/
def Obligations.MaxbitOperation : Prop :=
  ∀ (s : State) (rs : RegIdx),
    ((s.bs rs).p = false → RaisesFault (.maxbit rs) s .nullRcv (BitVec.ofNat 32 rs.toNat) 0) ∧
    ((s.bs rs).p = true → 1 ≤ (s.bs rs).len.toNat →
      (s.bs rs).val.length < ((s.bs rs).len.toNat + 7) / 8 →
      RaisesFault (.maxbit rs) s .byteIdx ((s.bs rs).len - 1) (BitVec.ofNat 32 (s.bs rs).val.length)) ∧
    ((s.bs rs).p = true → ((s.bs rs).len.toNat + 7) / 8 ≤ (s.bs rs).val.length →
      Succeeds (.maxbit rs) s fun t =>
        (((∀ p, p < (s.bs rs).len.toNat → readbit (s.bs rs) p = some false) ∧
            t.res = 0xFFFFFFFFFFFFFFFF) ∨
         (t.res.toNat < (s.bs rs).len.toNat ∧ readbit (s.bs rs) t.res.toNat = some true ∧
           ∀ q, t.res.toNat < q → q < (s.bs rs).len.toNat → readbit (s.bs rs) q = some false)) ∧
        BankKept s t ∧ t.obuf = s.obuf)

/-- TOUINT (43_integer.md R211, R212): the exact big-endian fold over every stored byte, or WIDTH. -/
def Obligations.TouintOperation : Prop :=
  ∀ (s : State) (rs : RegIdx),
    ((s.bs rs).p = false → RaisesFault (.touint rs) s .nullRcv (BitVec.ofNat 32 rs.toNat) 0) ∧
    ((s.bs rs).p = true → beval (s.bs rs).val < 2 ^ 64 → Succeeds (.touint rs) s fun t =>
      t.res.toNat = beval (s.bs rs).val ∧ BankKept s t ∧ t.obuf = s.obuf) ∧
    ((s.bs rs).p = true → 2 ^ 64 ≤ beval (s.bs rs).val →
      RaisesFault (.touint rs) s .width (BitVec.ofNat 32 rs.toNat) 0)

/-- FROMUINT (43_integer.md R216, R217). -/
def Obligations.FromuintOperation : Prop :=
  ∀ (s : State) (rs : RegIdx),
    ((s.bs rs).p = false → RaisesFault (.fromuint rs) s .nullRcv (BitVec.ofNat 32 rs.toNat) 0) ∧
    ((s.bs rs).p = true → (s.bs rs).val.length ≠ ((s.bs rs).len.toNat + 7) / 8 →
      RaisesFault (.fromuint rs) s .invariant (BitVec.ofNat 32 (s.bs rs).val.length)
        (BitVec.ofNat 32 (((s.bs rs).len.toNat + 7) / 8))) ∧
    ((s.bs rs).p = true → (s.bs rs).val.length = ((s.bs rs).len.toNat + 7) / 8 →
      Succeeds (.fromuint rs) s fun t =>
        (t.bs rs).p = true ∧ (t.bs rs).len = (s.bs rs).len ∧
        BytesOf (t.bs rs).val (s.bs rs).val.length (s.arg0.toNat % 2 ^ (s.bs rs).len.toNat) ∧
        BankKeptBut rs s t ∧ t.res = s.res ∧ t.obuf = s.obuf)

/-- ADDUINT (43_integer.md R221, R223): addition modulo 2^LEN, WIDTH where the fold or the sum of a
register wider than 64 bits does not fit the datapath. -/
def Obligations.AdduintOperation : Prop :=
  ∀ (s : State) (rs : RegIdx),
    ((s.bs rs).p = false → RaisesFault (.adduint rs) s .nullRcv (BitVec.ofNat 32 rs.toNat) 0) ∧
    ((s.bs rs).p = true → (s.bs rs).val.length ≠ ((s.bs rs).len.toNat + 7) / 8 →
      RaisesFault (.adduint rs) s .invariant (BitVec.ofNat 32 (s.bs rs).val.length)
        (BitVec.ofNat 32 (((s.bs rs).len.toNat + 7) / 8))) ∧
    ((s.bs rs).p = true → (s.bs rs).val.length = ((s.bs rs).len.toNat + 7) / 8 →
      (2 ^ 64 ≤ beval (s.bs rs).val →
        RaisesFault (.adduint rs) s .width (BitVec.ofNat 32 rs.toNat) 0) ∧
      (beval (s.bs rs).val < 2 ^ 64 → 64 < (s.bs rs).len.toNat →
        2 ^ 64 ≤ beval (s.bs rs).val + s.arg0.toNat →
        RaisesFault (.adduint rs) s .width (BitVec.ofNat 32 rs.toNat) 1) ∧
      (beval (s.bs rs).val < 2 ^ 64 →
        ((s.bs rs).len.toNat ≤ 64 ∨ beval (s.bs rs).val + s.arg0.toNat < 2 ^ 64) →
        Succeeds (.adduint rs) s fun t =>
          (t.bs rs).p = true ∧ (t.bs rs).len = (s.bs rs).len ∧
          BytesOf (t.bs rs).val (s.bs rs).val.length
            ((beval (s.bs rs).val + s.arg0.toNat) % 2 ^ (s.bs rs).len.toNat) ∧
          BankKeptBut rs s t ∧ t.res = s.res ∧ t.obuf = s.obuf))

/-- SUBBS's checks before it reads a bit, in order (44_slice.md R241, R245). -/
def Obligations.SubbsChecks : Prop :=
  ∀ (s : State) (rd rs : RegIdx),
    ((s.bs rs).p = false → RaisesFault (.subbs rd rs) s .nullRcv (BitVec.ofNat 32 rs.toNat) 0) ∧
    ((s.bs rs).p = true → lenArg s = 0 → RaisesFault (.subbs rd rs) s .zeroSlice 0 0) ∧
    ((s.bs rs).p = true → lenArg s ≠ 0 → s.params.vmax < (lenArg s + 7) / 8 →
      RaisesFault (.subbs rd rs) s .capacity
        (BitVec.ofNat 32 ((lenArg s + 7) / 8)) (BitVec.ofNat 32 s.params.vmax)) ∧
    (∀ k, (s.bs rs).p = true → (lenArg s + 7) / 8 ≤ s.params.vmax → k < lenArg s →
      SliceBitMissing (s.bs rs) (startArg s) k →
      (∀ j, j < k → ¬ SliceBitMissing (s.bs rs) (startArg s) j) →
      RaisesFault (.subbs rd rs) s .byteIdx (BitVec.ofNat 32 (startArg s + k))
        (BitVec.ofNat 32 (s.bs rs).val.length))

/-- SUBBS's result bit by bit, under every SUB_ORDER, also when rd = rs: the k-th bit read stands at
`place(k, len)`, a position at or above LEN reads 0, every excess bit is 0 (44_slice.md R241 to R244). -/
def Obligations.SubbsResult : Prop :=
  ∀ (s : State) (rd rs : RegIdx), (s.bs rs).p = true → lenArg s ≠ 0 →
    (lenArg s + 7) / 8 ≤ s.params.vmax →
    (∀ k, k < lenArg s → ¬ SliceBitMissing (s.bs rs) (startArg s) k) →
    Succeeds (.subbs rd rs) s fun t =>
      (t.bs rd).p = true ∧ (t.bs rd).len.toNat = lenArg s ∧
      (t.bs rd).val.length = (lenArg s + 7) / 8 ∧
      (∀ k, k < lenArg s → readbit (t.bs rd) (place s.params.subOrder k (lenArg s)) =
        if startArg s + k < (s.bs rs).len.toNat then readbit (s.bs rs) (startArg s + k) else some false) ∧
      (∀ p, lenArg s ≤ p → p < 8 * ((lenArg s + 7) / 8) → readbit (t.bs rd) p = some false) ∧
      BankKeptBut rd s t ∧ t.res = s.res ∧ t.obuf = s.obuf

/-! ## What the commands compute -/

/-- The stored bit at position `p` is bit `p` of the big-endian integer (10_state.md R36, R37): the two
readings of a bit string agree, and BYTEIDX is the absence of the byte. -/
def Obligations.ReadbitIsIntegerBit : Prop :=
  ∀ (b : BitString) (p : Nat),
    (p / 8 < b.val.length → readbit b p = some (decide (beval b.val / 2 ^ p % 2 = 1))) ∧
    (b.val.length ≤ p / 8 → readbit b p = none)

/-- NEWBS then TOUINT gives `value mod 2^len`, so it gives `value` when `value < 2^len`, and always when
`len` is at least 64 (40_construct.md R159, 43_integer.md R214). -/
def Obligations.NewbsTouintRoundTrip : Prop :=
  ∀ (s t : State) (rd : RegIdx), exec (.newbs rd) s = .next t → t.status.cause = .ok →
    Succeeds (.touint rd) t fun u =>
      u.res.toNat = s.arg0.toNat % 2 ^ lenArg s ∧
      (s.arg0.toNat < 2 ^ lenArg s → u.res = s.arg0) ∧ (64 ≤ lenArg s → u.res = s.arg0)

/-- TRUNC twice gives the bytes of TRUNC once, and the second succeeds too (41_update.md R179 (c)). -/
def Obligations.TruncIdempotent : Prop :=
  ∀ (s t : State) (rs : RegIdx), exec (.trunc rs) s = .next t → t.status.cause = .ok →
    Succeeds (.trunc rs) t fun u => (u.bs rs).val = (t.bs rs).val ∧ u.obuf = t.obuf

/-- A successful TRUNC clears the low `8*nbytes(LEN) - LEN` bits of the numeric value and no other bit: I2 holds
after it, and the value does change when one of those bits was set (10_state.md R35; 41_update.md R179 (d), (e);
90_conflicts.md C1). -/
def Obligations.TruncClearsLowEnd : Prop :=
  ∀ (s t : State) (rs : RegIdx), exec (.trunc rs) s = .next t → t.status.cause = .ok →
    beval (t.bs rs).val =
      beval (s.bs rs).val -
        beval (s.bs rs).val % 2 ^ (8 * (((s.bs rs).len.toNat + 7) / 8) - (s.bs rs).len.toNat) ∧
    beval (t.bs rs).val % 2 ^ (8 * (((s.bs rs).len.toNat + 7) / 8) - (s.bs rs).len.toNat) = 0

/-- Under I1, MAXBIT is the bit length of `value mod 2^LEN` less one (42_bitaccess.md R199). -/
def Obligations.MaxbitIsBitLength : Prop :=
  ∀ (s : State) (rs : RegIdx), (s.bs rs).p = true → (s.bs rs).I1 →
    Succeeds (.maxbit rs) s fun t =>
      (beval (s.bs rs).val % 2 ^ (s.bs rs).len.toNat = 0 → t.res = 0xFFFFFFFFFFFFFFFF) ∧
      (beval (s.bs rs).val % 2 ^ (s.bs rs).len.toNat ≠ 0 →
        2 ^ t.res.toNat ≤ beval (s.bs rs).val % 2 ^ (s.bs rs).len.toNat ∧
        beval (s.bs rs).val % 2 ^ (s.bs rs).len.toNat < 2 ^ (t.res.toNat + 1))

/-- For LEN at most 64 the two readings of AddUint agree: the sum in a 64-bit host integer masked to LEN is the
sum modulo 2^LEN (43_integer.md R222). -/
def Obligations.AdduintReadingsAgree : Prop :=
  ∀ (s t : State) (rs : RegIdx), exec (.adduint rs) s = .next t → t.status.cause = .ok →
    (s.bs rs).len.toNat ≤ 64 →
    beval (t.bs rs).val = (beval (s.bs rs).val + s.arg0.toNat) % 2 ^ 64 % 2 ^ (s.bs rs).len.toNat

/-- `place` is a bijection of [0, L) onto itself under every SUB_ORDER (44_slice.md R244, its first item). -/
def Obligations.PlaceIsBijection : Prop :=
  ∀ (order : SubOrder) (L : Nat), 1 ≤ L →
    (∀ k, k < L → place order k L < L) ∧
    (∀ j k, j < L → k < L → place order j L = place order k L → j = k) ∧
    (∀ q, q < L → ∃ k, k < L ∧ place order k L = q)

/-- The position of the k-th bit read, by the formulas of 44_slice.md R243 with `n` and `bff` as the rule has them;
and its byte: under REVERSE and BYTE_MSB_BIT_LSB the first `bff` bits read go to VAL[0] and each following group
of 8 to the next byte. -/
def Obligations.PlaceFollowsByteOrder : Prop :=
  ∀ (order : SubOrder) (k L : Nat), k < L →
    ∃ n bff : Nat, n = (L + 7) / 8 ∧ bff + (n - 1) * 8 = L ∧ 1 ≤ bff ∧ bff ≤ 8 ∧
      (place order k L =
        match order with
        | .reverse => L - 1 - k
        | .byteMsbBitLsb =>
          if k < bff then 8 * (n - 1) + k else 8 * (n - 1 - ((k - bff) / 8 + 1)) + (k - bff) % 8
        | .straight => k) ∧
      (order ≠ .straight →
        n - 1 - place order k L / 8 = if k < bff then 0 else (k - bff) / 8 + 1)

/-- Under STRAIGHT the slice's numeric value is `(value div 2^start) mod 2^len`, of the value of the source's
positions below LEN (44_slice.md R241, R243). -/
def Obligations.SubbsStraightIsDivMod : Prop :=
  ∀ (s t : State) (rd rs : RegIdx), s.params.subOrder = .straight →
    exec (.subbs rd rs) s = .next t → t.status.cause = .ok →
    beval (t.bs rd).val =
      beval (s.bs rs).val % 2 ^ (s.bs rs).len.toNat / 2 ^ startArg s % 2 ^ lenArg s

/-- Under REVERSE a slice of the whole of a slice gives the source's low bits back in their own order: the placement
reverses the bits (44_slice.md R243). -/
def Obligations.SubbsReverseTwice : Prop :=
  ∀ (s t u : State) (rd rs rq : RegIdx), s.params.subOrder = .reverse → startArg s = 0 →
    exec (.subbs rd rs) s = .next t → t.status.cause = .ok →
    exec (.subbs rq rd) t = .next u → u.status.cause = .ok →
    beval (u.bs rq).val = beval (s.bs rs).val % 2 ^ (s.bs rs).len.toNat % 2 ^ lenArg s

/-! ## The register window -/

/-- Only CMD writes and BDATA accesses have side effects: every other read changes nothing but the bus port's
answer, every other write only the register it names, or nothing; BADDR takes the value written
(20_memory.md R86, R87). -/
def Obligations.SideEffectsOnlyWhereNamed : Prop :=
  ∀ (s : State) (a : Offset) (v : Word32) (rest : List HostEvent), a.toNat % 4 = 0 → a ≠ 0x058 →
    (s.host = .read a :: rest → ∃ x, step s = .next { s with host := rest, reply := some (.data x) }) ∧
    (s.host = .write a v :: rest → a ≠ 0x00C → ∃ x0 x1 n b d,
      step s = .next { s with host := rest, reply := some .written,
                              arg0 := x0, arg1 := x1, ilen := n, bsel := b, baddr := d } ∧
      (a ≠ 0x020 → a ≠ 0x024 → x0 = s.arg0) ∧ (a ≠ 0x028 → a ≠ 0x02C → x1 = s.arg1) ∧
      (a ≠ 0x040 → n = s.ilen) ∧ (a ≠ 0x050 → b = s.bsel) ∧
      (a ≠ 0x054 → d = s.baddr) ∧ (a = 0x054 → d = v))

/-- What the named offsets read (20_memory.md R87, R89, R91; 10_state.md R43), STATUS with the code of each cause
as the table of 60_exceptions.md R260 numbers it. -/
def Obligations.WindowReads : Prop :=
  ∀ (s : State) (a : Offset) (rest : List HostEvent) (v : Word32), s.host = .read a :: rest →
    ((a = 0x000 ∧ v = 0x42465801) ∨ (a = 0x008 ∧ v = BitVec.ofNat 32 s.params.vmax) ∨
     (a = 0x00C ∧ v = 0) ∨
     (a = 0x010 ∧ v.toNat = causeNumber s.status.cause +
       (if s.status.err then 0x100 else 0) + (if s.status.fault then 0x200 else 0)) ∨
     (a = 0x014 ∧ v = s.info0) ∨ (a = 0x018 ∧ v = s.info1) ∨
     (a = 0x020 ∧ v.toNat = s.arg0.toNat % 2 ^ 32) ∨ (a = 0x024 ∧ v.toNat = s.arg0.toNat / 2 ^ 32) ∨
     (a = 0x028 ∧ v.toNat = s.arg1.toNat % 2 ^ 32) ∨ (a = 0x02C ∧ v.toNat = s.arg1.toNat / 2 ^ 32) ∨
     (a = 0x030 ∧ v.toNat = s.res.toNat % 2 ^ 32) ∨ (a = 0x034 ∧ v.toNat = s.res.toNat / 2 ^ 32) ∨
     (a = 0x040 ∧ v = s.ilen) ∨ (a = 0x044 ∧ v = BitVec.ofNat 32 s.obuf.length) ∨
     (a = 0x050 ∧ v.toNat = s.bsel.toNat) ∨ (a = 0x054 ∧ v = s.baddr)) →
    step s = .next { s with host := rest, reply := some (.data v) }

/-- A read of CAPS gives the build parameters in their fields, the other bits 0 (10_state.md R47). -/
def Obligations.CapsReportsParameters : Prop :=
  ∀ (s : State) (rest : List HostEvent), s.params.Legal → s.host = .read 0x004 :: rest →
    ∃ v : Word32, step s = .next { s with host := rest, reply := some (.data v) } ∧
      v.toNat % 32 = s.params.nbs ∧ v.toNat / 32 % 8 = 0 ∧ v.toNat / 2 ^ 8 % 2 ^ 8 = 64 ∧
      (v.toNat / 2 ^ 16 % 2 = 1 ↔ s.params.u2bMask = true) ∧
      v.toNat / 2 ^ 17 % 4 =
        (match s.params.subOrder with | .reverse => 0 | .byteMsbBitLsb => 1 | .straight => 2) ∧
      v.toNat / 2 ^ 19 = 0

/-- The headers of `B[i]` (20_memory.md R92, R87). -/
def Obligations.HeaderReads : Prop :=
  ∀ (s : State) (i : RegIdx) (rest : List HostEvent), i.toNat < s.params.nbs →
    (s.host = .read (BitVec.ofNat 12 (0x100 + 0x10 * i.toNat)) :: rest →
      step s = .next { s with host := rest, reply := some (.data (BitVec.ofNat 32 (s.bs i).p.toNat)) }) ∧
    (s.host = .read (BitVec.ofNat 12 (0x104 + 0x10 * i.toNat)) :: rest →
      step s = .next { s with host := rest, reply := some (.data (s.bs i).len) }) ∧
    (s.host = .read (BitVec.ofNat 12 (0x108 + 0x10 * i.toNat)) :: rest →
      step s = .next { s with host := rest,
                              reply := some (.data (BitVec.ofNat 32 (s.bs i).val.length)) })

/-- A reserved offset reads 0 and a write of it has no effect; so do the headers of registers that do not
exist (20_memory.md R90, R92). -/
def Obligations.ReservedOffsets : Prop :=
  ∀ (s : State) (a : Offset) (v : Word32) (rest : List HostEvent), a.toNat % 4 = 0 →
    OffsetReserved s.params.nbs a.toNat →
    (s.host = .read a :: rest → step s = .next { s with host := rest, reply := some (.data 0) }) ∧
    (s.host = .write a v :: rest → step s = .next { s with host := rest, reply := some .written })

/-- A write of a read-only register has no effect (20_memory.md R91): ID, CAPS, VMAXR, STATUS, INFO0, INFO1,
RES_LO, RES_HI, OLEN and every header; a read of CMD returns 0 and has no side effect. -/
def Obligations.ReadOnlyRegisters : Prop :=
  ∀ (s : State) (a : Offset) (v : Word32) (rest : List HostEvent),
    (s.host = .write a v :: rest → a.toNat % 4 = 0 →
      (a.toNat ≤ 0x008 ∨ (0x010 ≤ a.toNat ∧ a.toNat ≤ 0x018) ∨ (0x030 ≤ a.toNat ∧ a.toNat ≤ 0x034) ∨
        a = 0x044 ∨ (0x100 ≤ a.toNat ∧ a.toNat < 0x200)) →
      step s = .next { s with host := rest, reply := some .written }) ∧
    (s.host = .read 0x00C :: rest → step s = .next { s with host := rest, reply := some (.data 0) })

/-- A write of one half of ARG0 or ARG1 sets that half and keeps the other (20_memory.md R89). -/
def Obligations.ArgumentHalves : Prop :=
  ∀ (s : State) (v : Word32) (rest : List HostEvent),
    (s.host = .write 0x020 v :: rest → ∃ x : Word64,
      step s = .next { s with host := rest, reply := some .written, arg0 := x } ∧
      x.toNat % 2 ^ 32 = v.toNat ∧ x.toNat / 2 ^ 32 = s.arg0.toNat / 2 ^ 32) ∧
    (s.host = .write 0x024 v :: rest → ∃ x : Word64,
      step s = .next { s with host := rest, reply := some .written, arg0 := x } ∧
      x.toNat / 2 ^ 32 = v.toNat ∧ x.toNat % 2 ^ 32 = s.arg0.toNat % 2 ^ 32) ∧
    (s.host = .write 0x028 v :: rest → ∃ x : Word64,
      step s = .next { s with host := rest, reply := some .written, arg1 := x } ∧
      x.toNat % 2 ^ 32 = v.toNat ∧ x.toNat / 2 ^ 32 = s.arg1.toNat / 2 ^ 32) ∧
    (s.host = .write 0x02C v :: rest → ∃ x : Word64,
      step s = .next { s with host := rest, reply := some .written, arg1 := x } ∧
      x.toNat / 2 ^ 32 = v.toNat ∧ x.toNat % 2 ^ 32 = s.arg1.toNat % 2 ^ 32)

/-- ILEN is write-any-read-legal (20_memory.md R93). -/
def Obligations.IlenWriteAnyReadLegal : Prop :=
  ∀ (s : State) (v : Word32) (rest : List HostEvent), s.host = .write 0x040 v :: rest →
    (v.toNat ≤ s.params.vmax →
      step s = .next { s with host := rest, reply := some .written, ilen := v }) ∧
    (s.params.vmax < v.toNat → step s = .next { s with host := rest, reply := some .written })

/-- BSEL is write-any-read-legal, and a write leaves it legal (20_memory.md R94). -/
def Obligations.BselWriteAnyReadLegal : Prop :=
  ∀ (s : State) (v : Word32) (rest : List HostEvent), s.params.Legal → s.host = .write 0x050 v :: rest →
    ((v.toNat < s.params.nbs ∨ v.toNat = 16 ∨ v.toNat = 17) → ∃ x : BitVec 5, x.toNat = v.toNat ∧
      step s = .next { s with host := rest, reply := some .written, bsel := x }) ∧
    (¬ (v.toNat < s.params.nbs ∨ v.toNat = 16 ∨ v.toNat = 17) →
      step s = .next { s with host := rest, reply := some .written })

/-- A read of BDATA (20_memory.md R95): the byte of the buffer BSEL selects at index BADDR, 0 past its end, a model
fault on an unwritten IBUF cell, and BADDR incremented mod 2^32. -/
def Obligations.ByteWindowRead : Prop :=
  ∀ (s : State) (rest : List HostEvent), s.params.Legal → s.host = .read 0x058 :: rest →
    (∀ r : RegIdx, s.bsel.toNat = r.toNat → r.toNat < s.params.nbs →
      step s = .next { s with host := rest, baddr := s.baddr + 1,
                              reply := some (.data (((s.bs r).val.getD s.baddr.toNat 0).setWidth 32)) }) ∧
    (s.bsel.toNat = 17 →
      step s = .next { s with host := rest, baddr := s.baddr + 1,
                              reply := some (.data ((s.obuf.getD s.baddr.toNat 0).setWidth 32)) }) ∧
    (s.bsel.toNat = 16 → s.params.vmax ≤ s.baddr.toNat →
      step s = .next { s with host := rest, baddr := s.baddr + 1, reply := some (.data 0) }) ∧
    (∀ x, s.bsel.toNat = 16 → s.baddr.toNat < s.params.vmax → s.ibuf.read s.baddr.toNat = some x →
      step s = .next { s with host := rest, baddr := s.baddr + 1,
                              reply := some (.data (x.setWidth 32)) }) ∧
    (s.bsel.toNat = 16 → s.baddr.toNat < s.params.vmax → s.ibuf.read s.baddr.toNat = none →
      step s = .fault .uninitHostRead)

/-- A write of BDATA (20_memory.md R95): only IBUF is writable, only the cell at BADDR changes, BADDR is incremented in
every case. -/
def Obligations.ByteWindowWrite : Prop :=
  ∀ (s : State) (v : Word32) (rest : List HostEvent), s.host = .write 0x058 v :: rest →
    ∃ m : Memory, step s = .next { s with
        host := rest, reply := some .written, baddr := s.baddr + 1, ibuf := m } ∧
      (∀ a, a ≠ s.baddr.toNat → m.read a = s.ibuf.read a) ∧
      (s.bsel.toNat = 16 → s.baddr.toNat < s.params.vmax →
        m.read s.baddr.toNat = some (BitVec.ofNat 8 (v.toNat % 256))) ∧
      (¬ (s.bsel.toNat = 16 ∧ s.baddr.toNat < s.params.vmax) → m = s.ibuf)
end

