-- ==== Sys2Proof/Laws/Bytes.lean ====
section
/-! SUPPORT. The integer and byte-sequence functions: byte counts, the big-endian fold and its inverse. -/

namespace Sys2Proof.Machine

theorem nbytes_mul_ge (L : Nat) : L ≤ 8 * nbytes L := by simp only [nbytes]; omega

theorem nbytes_mul_lt (L : Nat) : 8 * nbytes L < L + 8 := by simp only [nbytes]; omega

@[simp] theorem nbytes_zero : nbytes 0 = 0 := rfl

theorem nbytes_pos (L : Nat) (h : L ≠ 0) : 1 ≤ nbytes L := by simp only [nbytes]; omega

/-- The trailing bits of TRUNC stay within the last byte (41_update.md R179 (b)). -/
theorem trailingBits_lt (L : Nat) : trailingBits L < 8 := by
  simp only [trailingBits, nbytes]; omega

theorem mask_lt (v L : Nat) : mask v L < 2 ^ L := Nat.mod_lt _ (Nat.two_pow_pos L)

theorem pow256 (n : Nat) : 256 ^ n = 2 ^ (8 * n) := by rw [Nat.pow_mul]

/-- A masked value fits the bytes its length needs. -/
theorem mask_lt_pow256 (v L : Nat) : mask v L < 256 ^ nbytes L := by
  refine lt_of_lt_of_le (mask_lt v L) ?_
  rw [pow256]
  exact Nat.pow_le_pow_right (by omega) (nbytes_mul_ge L)

@[simp] theorem length_bepack (v n : Nat) : (bepack v n).length = n := by simp [bepack]

@[simp] theorem bepack_zero (v : Nat) : bepack v 0 = [] := rfl

@[simp] theorem beval_nil : beval [] = 0 := rfl

theorem beval_append_singleton (xs : List Byte) (x : Byte) : beval (xs ++ [x]) = beval xs * 256 + x.toNat := by
  simp [beval]

theorem beval_append (xs ys : List Byte) : beval (xs ++ ys) = beval xs * 256 ^ ys.length + beval ys := by
  induction ys using List.reverseRecOn with
  | nil => simp
  | append_singleton ys y ih =>
    rw [← List.append_assoc, beval_append_singleton, beval_append_singleton, ih]
    simp [pow_succ]; ring

theorem beval_singleton (x : Byte) : beval [x] = x.toNat := by simp [beval]

theorem beval_cons (x : Byte) (xs : List Byte) : beval (x :: xs) = x.toNat * 256 ^ xs.length + beval xs := by
  have := beval_append [x] xs
  simpa [beval_singleton] using this

/-- The fold of n bytes is below 256^n. -/
theorem beval_lt (xs : List Byte) : beval xs < 256 ^ xs.length := by
  induction xs with
  | nil => simp
  | cons x xs ih =>
    have hx : x.toNat < 256 := x.isLt
    have h1 : (x.toNat + 1) * 256 ^ xs.length ≤ 256 * 256 ^ xs.length := Nat.mul_le_mul_right _ hx
    rw [beval_cons, List.length_cons, pow_succ]
    nlinarith

/-- The last byte of a packed value is its lowest 8 bits. -/
theorem bepack_succ (v n : Nat) : bepack v (n + 1) = bepack (v / 256) n ++ [BitVec.ofNat 8 v] := by
  simp only [bepack, List.range_succ, List.map_append, List.map_cons, List.map_nil]
  refine congrArg₂ _ (List.map_congr_left fun i hi => ?_) (by simp)
  have hi' : i < n := List.mem_range.1 hi
  have : n + 1 - 1 - i = (n - 1 - i) + 1 := by omega
  rw [this, pow_succ, Nat.div_div_eq_div_mul, Nat.mul_comm]

/-- Packing keeps `v mod 256^n` (00_scope.md R15). -/
theorem beval_bepack (v n : Nat) : beval (bepack v n) = v % 256 ^ n := by
  induction n generalizing v with
  | zero => simp [Nat.mod_one]
  | succ n ih =>
    have h : v % 256 ^ (n + 1) = v % 256 + 256 * (v / 256 % 256 ^ n) := by
      rw [show 256 ^ (n + 1) = 256 * 256 ^ n from Nat.pow_succ', Nat.mod_mul]
    rw [bepack_succ, beval_append_singleton, ih, BitVec.toNat_ofNat, h]
    omega

/-- Packing a value that fits is inverse to the fold. -/
theorem beval_bepack_of_lt (v n : Nat) (h : v < 256 ^ n) : beval (bepack v n) = v := by
  rw [beval_bepack, Nat.mod_eq_of_lt h]

/-- Bytes of one length are fixed by their integer. -/
theorem beval_injective (xs ys : List Byte) (hlen : xs.length = ys.length) (h : beval xs = beval ys) : xs = ys := by
  induction xs generalizing ys with
  | nil => cases ys with
    | nil => rfl
    | cons => simp at hlen
  | cons x xs ih =>
    cases ys with
    | nil => simp at hlen
    | cons y ys =>
      have hl : xs.length = ys.length := by simpa using hlen
      rw [beval_cons, beval_cons, hl] at h
      have h1 := beval_lt xs
      have h2 := beval_lt ys
      rw [hl] at h1
      have hx : x.toNat = y.toNat := by
        have hpos : 0 < 256 ^ ys.length := Nat.pow_pos (by omega)
        have e := congrArg (· / 256 ^ ys.length) h
        simp only [Nat.mul_comm _ (256 ^ ys.length), Nat.mul_add_div hpos, Nat.div_eq_of_lt h1,
          Nat.div_eq_of_lt h2, Nat.add_zero] at e
        exact e
      rw [BitVec.eq_of_toNat_eq hx, ih ys hl (by rw [hx] at h; omega)]

@[simp] theorem length_truncBytes (xs : List Byte) (L : Nat) : (truncBytes xs L).length = xs.length := by
  simp [truncBytes]

end Sys2Proof.Machine
end

