-- ==== Sys2Proof/Laws/Memory.lean ====
section
/-! SUPPORT. IBUF's cell list: reading after writing, the canonical form, and runs of cells. -/

namespace Sys2Proof.Machine

@[simp] theorem Memory.wf_nil : Memory.wf [] = true := rfl

@[simp] theorem Memory.read_nil (a : Nat) : Memory.read [] a = none := rfl

theorem Memory.read_cons (c : Host.Cell) (m : Memory) (a : Nat) :
    Memory.read (c :: m) a = if c.1 = a then some c.2 else Memory.read m a := rfl

/-- A read of the cell just written gives the byte written. -/
@[simp] theorem Memory.read_write_same (m : Memory) (a : Nat) (x : Byte) :
    Memory.read (Memory.write m a x) a = some x := by
  induction m with
  | nil => simp [Memory.write, Memory.read]
  | cons c m ih =>
    simp only [Memory.write]
    split
    · simp [Memory.read]
    · split
      · simp [Memory.read]
      · rename_i hne
        simp [Memory.read, Ne.symm hne, ih]

/-- A write leaves every other cell alone. -/
theorem Memory.read_write_ne (m : Memory) (a b : Nat) (x : Byte) (h : b ≠ a) :
    Memory.read (Memory.write m a x) b = Memory.read m b := by
  induction m with
  | nil => simp [Memory.write, Memory.read, h.symm]
  | cons c m ih =>
    simp only [Memory.write]
    split
    · simp [Memory.read, h.symm]
    · split
      · rename_i heq
        simp [Memory.read, h.symm, ← heq]
      · simp only [Memory.read, ih]

/-- A list in canonical form stays so when a cell below all of it is put in front. -/
theorem Memory.wf_cons_iff (a : Nat) (x : Byte) (m : Memory) :
    Memory.wf ((a, x) :: m) = true ↔ (∀ c, m.head? = some c → a < c.1) ∧ Memory.wf m = true := by
  cases m with
  | nil => simp [Memory.wf]
  | cons c m => simp [Memory.wf]

/-- The lowest index after a write is the old one or the one written. -/
theorem Memory.head_write (m : Memory) (a : Nat) (x : Byte) (c : Host.Cell)
    (h : (Memory.write m a x).head? = some c) : c.1 = a ∨ m.head? = some c := by
  cases m with
  | nil => simp [Memory.write] at h; simp [← h]
  | cons d m =>
    simp only [Memory.write] at h
    split at h
    · simp at h; simp [← h]
    · split at h
      · simp at h; simp [← h]
      · simp at h; simp [h]

/-- A write keeps the canonical form. -/
theorem Memory.wf_write (m : Memory) (a : Nat) (x : Byte) (h : Memory.wf m = true) :
    Memory.wf (Memory.write m a x) = true := by
  induction m with
  | nil => rfl
  | cons c m ih =>
    obtain ⟨k, y⟩ := c
    have hk := (Memory.wf_cons_iff k y m).1 h
    simp only [Memory.write]
    split
    · rename_i hlt
      exact (Memory.wf_cons_iff a x _).2 ⟨by simp [hlt], h⟩
    · split
      · rename_i heq
        exact (Memory.wf_cons_iff a x m).2 ⟨heq ▸ hk.1, hk.2⟩
      · refine (Memory.wf_cons_iff k y _).2 ⟨fun d hd => ?_, ih hk.2⟩
        rcases Memory.head_write m a x d hd with h1 | h1
        · omega
        · exact hk.1 d h1

/-- The cells written after a write are those before and the one written. -/
theorem Memory.isSome_read_write (m : Memory) (a b : Nat) (x : Byte)
    (h : (Memory.read (Memory.write m a x) b).isSome = true) :
    b = a ∨ (Memory.read m b).isSome = true := by
  by_cases hb : b = a
  · exact Or.inl hb
  · exact Or.inr (by rwa [Memory.read_write_ne m a b x hb] at h)

/-- A run of `n` cells is the list of their bytes. -/
theorem Memory.bytes_eq_some_iff (m : Memory) (a n : Nat) (xs : List Byte) :
    Memory.bytes m a n = some xs ↔ xs.length = n ∧ ∀ j, j < n → Memory.read m (a + j) = xs[j]? := by
  induction n generalizing a xs with
  | zero => cases xs <;> simp [Memory.bytes]
  | succ n ih =>
    constructor
    · intro h
      simp only [Memory.bytes] at h
      split at h
      · rename_i x ys hx hys
        obtain ⟨hlen, hcell⟩ := (ih (a + 1) ys).1 hys
        cases h
        refine ⟨by simp [hlen], fun j hj => ?_⟩
        cases j with
        | zero => simpa using hx
        | succ j =>
          have := hcell j (by omega)
          simpa [Nat.add_assoc, Nat.add_comm 1 j] using this
      · cases h
    · rintro ⟨hlen, hcell⟩
      cases xs with
      | nil => simp at hlen
      | cons x ys =>
        have hx : Memory.read m a = some x := by simpa using hcell 0 (by omega)
        have hys : Memory.bytes m (a + 1) n = some ys := by
          refine (ih (a + 1) ys).2 ⟨by simpa using hlen, fun j hj => ?_⟩
          have := hcell (j + 1) (by omega)
          simpa [Nat.add_assoc, Nat.add_comm 1 j] using this
        simp [Memory.bytes, hx, hys]

/-- A run of cells has no value exactly when one of them is unwritten. -/
theorem Memory.bytes_eq_none_iff (m : Memory) (a n : Nat) :
    Memory.bytes m a n = none ↔ ∃ j, j < n ∧ Memory.read m (a + j) = none := by
  induction n generalizing a with
  | zero => simp [Memory.bytes]
  | succ n ih =>
    constructor
    · intro h
      cases hx : Memory.read m a with
      | none => exact ⟨0, by omega, by simpa using hx⟩
      | some x =>
        cases hys : Memory.bytes m (a + 1) n with
        | none =>
          obtain ⟨j, hj, hr⟩ := (ih (a + 1)).1 hys
          exact ⟨j + 1, by omega, by simpa [Nat.add_assoc, Nat.add_comm 1 j] using hr⟩
        | some ys => simp [Memory.bytes, hx, hys] at h
    · rintro ⟨j, hj, hr⟩
      cases j with
      | zero => simp [Memory.bytes, show Memory.read m a = none by simpa using hr]
      | succ j =>
        have : Memory.bytes m (a + 1) n = none :=
          (ih (a + 1)).2 ⟨j, by omega, by simpa [Nat.add_assoc, Nat.add_comm 1 j] using hr⟩
        simp [Memory.bytes, this]

end Sys2Proof.Machine
end

