-- ==== Sys2Proof/Laws/State.lean ====
section
/-! SUPPORT. One lemma per field per update of the state, and what reading a bit-string register gives after
each update. -/

namespace Sys2Proof.Machine

/-- A register read depends on the bank alone. -/
theorem State.bs_congr {s t : State} (h : t.bank = s.bank) (r : RegIdx) : t.bs r = s.bs r := by
  simp [State.bs, h]

@[simp] theorem State.bs_setBs_same (s : State) (r : RegIdx) (b : BitString) : (s.setBs r b).bs r = b := by
  simp [State.bs, State.setBs]

theorem State.bs_setBs_ne (s : State) (r q : RegIdx) (b : BitString) (h : q ≠ r) :
    (s.setBs r b).bs q = s.bs q := by
  have hne : r.toNat ≠ q.toNat := fun e => h (BitVec.eq_of_toNat_eq e.symm)
  simp [State.bs, State.setBs, hne]

@[simp] theorem State.bs_setVal_same (s : State) (r : RegIdx) (xs : List Byte) :
    (s.setVal r xs).bs r = { s.bs r with val := xs } := by
  simp [State.setVal]

theorem State.bs_setVal_ne (s : State) (r q : RegIdx) (xs : List Byte) (h : q ≠ r) :
    (s.setVal r xs).bs q = s.bs q :=
  State.bs_setBs_ne s r q _ h

@[simp] theorem State.bs_setObuf (s : State) (xs : List Byte) (r : RegIdx) : (s.setObuf xs).bs r = s.bs r := rfl

@[simp] theorem State.bs_setRes (s : State) (v : Word64) (r : RegIdx) : (s.setRes v).bs r = s.bs r := rfl

@[simp] theorem State.bs_answer (s : State) (v : Word32) (r : RegIdx) : (s.answer v).bs r = s.bs r := rfl

@[simp] theorem State.bs_bumpBaddr (s : State) (r : RegIdx) : s.bumpBaddr.bs r = s.bs r := rfl

@[simp] theorem State.bs_resetFor (p : Params) (r : RegIdx) : (State.resetFor p).bs r = BitString.null := by
  simp [State.bs, State.resetFor]

@[simp] theorem State.params_setBs (s : State) (r : RegIdx) (b : BitString) : (s.setBs r b).params = s.params := rfl

@[simp] theorem State.arg0_setBs (s : State) (r : RegIdx) (b : BitString) : (s.setBs r b).arg0 = s.arg0 := rfl

@[simp] theorem State.arg1_setBs (s : State) (r : RegIdx) (b : BitString) : (s.setBs r b).arg1 = s.arg1 := rfl

@[simp] theorem State.res_setBs (s : State) (r : RegIdx) (b : BitString) : (s.setBs r b).res = s.res := rfl

@[simp] theorem State.ibuf_setBs (s : State) (r : RegIdx) (b : BitString) : (s.setBs r b).ibuf = s.ibuf := rfl

@[simp] theorem State.ilen_setBs (s : State) (r : RegIdx) (b : BitString) : (s.setBs r b).ilen = s.ilen := rfl

@[simp] theorem State.obuf_setBs (s : State) (r : RegIdx) (b : BitString) : (s.setBs r b).obuf = s.obuf := rfl

@[simp] theorem State.status_setBs (s : State) (r : RegIdx) (b : BitString) : (s.setBs r b).status = s.status := rfl

@[simp] theorem State.info0_setBs (s : State) (r : RegIdx) (b : BitString) : (s.setBs r b).info0 = s.info0 := rfl

@[simp] theorem State.info1_setBs (s : State) (r : RegIdx) (b : BitString) : (s.setBs r b).info1 = s.info1 := rfl

@[simp] theorem State.bsel_setBs (s : State) (r : RegIdx) (b : BitString) : (s.setBs r b).bsel = s.bsel := rfl

@[simp] theorem State.baddr_setBs (s : State) (r : RegIdx) (b : BitString) : (s.setBs r b).baddr = s.baddr := rfl

@[simp] theorem State.host_setBs (s : State) (r : RegIdx) (b : BitString) : (s.setBs r b).host = s.host := rfl

@[simp] theorem State.reply_setBs (s : State) (r : RegIdx) (b : BitString) : (s.setBs r b).reply = s.reply := rfl

@[simp] theorem State.params_setVal (s : State) (r : RegIdx) (xs : List Byte) : (s.setVal r xs).params = s.params := rfl

@[simp] theorem State.arg0_setVal (s : State) (r : RegIdx) (xs : List Byte) : (s.setVal r xs).arg0 = s.arg0 := rfl

@[simp] theorem State.arg1_setVal (s : State) (r : RegIdx) (xs : List Byte) : (s.setVal r xs).arg1 = s.arg1 := rfl

@[simp] theorem State.res_setVal (s : State) (r : RegIdx) (xs : List Byte) : (s.setVal r xs).res = s.res := rfl

@[simp] theorem State.ibuf_setVal (s : State) (r : RegIdx) (xs : List Byte) : (s.setVal r xs).ibuf = s.ibuf := rfl

@[simp] theorem State.ilen_setVal (s : State) (r : RegIdx) (xs : List Byte) : (s.setVal r xs).ilen = s.ilen := rfl

@[simp] theorem State.obuf_setVal (s : State) (r : RegIdx) (xs : List Byte) : (s.setVal r xs).obuf = s.obuf := rfl

@[simp] theorem State.status_setVal (s : State) (r : RegIdx) (xs : List Byte) : (s.setVal r xs).status = s.status := rfl

@[simp] theorem State.info0_setVal (s : State) (r : RegIdx) (xs : List Byte) : (s.setVal r xs).info0 = s.info0 := rfl

@[simp] theorem State.info1_setVal (s : State) (r : RegIdx) (xs : List Byte) : (s.setVal r xs).info1 = s.info1 := rfl

@[simp] theorem State.bsel_setVal (s : State) (r : RegIdx) (xs : List Byte) : (s.setVal r xs).bsel = s.bsel := rfl

@[simp] theorem State.baddr_setVal (s : State) (r : RegIdx) (xs : List Byte) : (s.setVal r xs).baddr = s.baddr := rfl

@[simp] theorem State.host_setVal (s : State) (r : RegIdx) (xs : List Byte) : (s.setVal r xs).host = s.host := rfl

@[simp] theorem State.reply_setVal (s : State) (r : RegIdx) (xs : List Byte) : (s.setVal r xs).reply = s.reply := rfl

@[simp] theorem State.params_setObuf (s : State) (xs : List Byte) : (s.setObuf xs).params = s.params := rfl

@[simp] theorem State.bank_setObuf (s : State) (xs : List Byte) : (s.setObuf xs).bank = s.bank := rfl

@[simp] theorem State.arg0_setObuf (s : State) (xs : List Byte) : (s.setObuf xs).arg0 = s.arg0 := rfl

@[simp] theorem State.arg1_setObuf (s : State) (xs : List Byte) : (s.setObuf xs).arg1 = s.arg1 := rfl

@[simp] theorem State.res_setObuf (s : State) (xs : List Byte) : (s.setObuf xs).res = s.res := rfl

@[simp] theorem State.ibuf_setObuf (s : State) (xs : List Byte) : (s.setObuf xs).ibuf = s.ibuf := rfl

@[simp] theorem State.ilen_setObuf (s : State) (xs : List Byte) : (s.setObuf xs).ilen = s.ilen := rfl

@[simp] theorem State.obuf_setObuf (s : State) (xs : List Byte) : (s.setObuf xs).obuf = xs := rfl

@[simp] theorem State.status_setObuf (s : State) (xs : List Byte) : (s.setObuf xs).status = s.status := rfl

@[simp] theorem State.info0_setObuf (s : State) (xs : List Byte) : (s.setObuf xs).info0 = s.info0 := rfl

@[simp] theorem State.info1_setObuf (s : State) (xs : List Byte) : (s.setObuf xs).info1 = s.info1 := rfl

@[simp] theorem State.bsel_setObuf (s : State) (xs : List Byte) : (s.setObuf xs).bsel = s.bsel := rfl

@[simp] theorem State.baddr_setObuf (s : State) (xs : List Byte) : (s.setObuf xs).baddr = s.baddr := rfl

@[simp] theorem State.host_setObuf (s : State) (xs : List Byte) : (s.setObuf xs).host = s.host := rfl

@[simp] theorem State.reply_setObuf (s : State) (xs : List Byte) : (s.setObuf xs).reply = s.reply := rfl

@[simp] theorem State.params_setRes (s : State) (v : Word64) : (s.setRes v).params = s.params := rfl

@[simp] theorem State.bank_setRes (s : State) (v : Word64) : (s.setRes v).bank = s.bank := rfl

@[simp] theorem State.arg0_setRes (s : State) (v : Word64) : (s.setRes v).arg0 = s.arg0 := rfl

@[simp] theorem State.arg1_setRes (s : State) (v : Word64) : (s.setRes v).arg1 = s.arg1 := rfl

@[simp] theorem State.res_setRes (s : State) (v : Word64) : (s.setRes v).res = v := rfl

@[simp] theorem State.ibuf_setRes (s : State) (v : Word64) : (s.setRes v).ibuf = s.ibuf := rfl

@[simp] theorem State.ilen_setRes (s : State) (v : Word64) : (s.setRes v).ilen = s.ilen := rfl

@[simp] theorem State.obuf_setRes (s : State) (v : Word64) : (s.setRes v).obuf = s.obuf := rfl

@[simp] theorem State.status_setRes (s : State) (v : Word64) : (s.setRes v).status = s.status := rfl

@[simp] theorem State.info0_setRes (s : State) (v : Word64) : (s.setRes v).info0 = s.info0 := rfl

@[simp] theorem State.info1_setRes (s : State) (v : Word64) : (s.setRes v).info1 = s.info1 := rfl

@[simp] theorem State.bsel_setRes (s : State) (v : Word64) : (s.setRes v).bsel = s.bsel := rfl

@[simp] theorem State.baddr_setRes (s : State) (v : Word64) : (s.setRes v).baddr = s.baddr := rfl

@[simp] theorem State.host_setRes (s : State) (v : Word64) : (s.setRes v).host = s.host := rfl

@[simp] theorem State.reply_setRes (s : State) (v : Word64) : (s.setRes v).reply = s.reply := rfl

@[simp] theorem State.params_answer (s : State) (v : Word32) : (s.answer v).params = s.params := rfl

@[simp] theorem State.bank_answer (s : State) (v : Word32) : (s.answer v).bank = s.bank := rfl

@[simp] theorem State.arg0_answer (s : State) (v : Word32) : (s.answer v).arg0 = s.arg0 := rfl

@[simp] theorem State.arg1_answer (s : State) (v : Word32) : (s.answer v).arg1 = s.arg1 := rfl

@[simp] theorem State.res_answer (s : State) (v : Word32) : (s.answer v).res = s.res := rfl

@[simp] theorem State.ibuf_answer (s : State) (v : Word32) : (s.answer v).ibuf = s.ibuf := rfl

@[simp] theorem State.ilen_answer (s : State) (v : Word32) : (s.answer v).ilen = s.ilen := rfl

@[simp] theorem State.obuf_answer (s : State) (v : Word32) : (s.answer v).obuf = s.obuf := rfl

@[simp] theorem State.status_answer (s : State) (v : Word32) : (s.answer v).status = s.status := rfl

@[simp] theorem State.info0_answer (s : State) (v : Word32) : (s.answer v).info0 = s.info0 := rfl

@[simp] theorem State.info1_answer (s : State) (v : Word32) : (s.answer v).info1 = s.info1 := rfl

@[simp] theorem State.bsel_answer (s : State) (v : Word32) : (s.answer v).bsel = s.bsel := rfl

@[simp] theorem State.baddr_answer (s : State) (v : Word32) : (s.answer v).baddr = s.baddr := rfl

@[simp] theorem State.host_answer (s : State) (v : Word32) : (s.answer v).host = s.host := rfl

@[simp] theorem State.reply_answer (s : State) (v : Word32) : (s.answer v).reply = some (.data v) := rfl

@[simp] theorem State.params_bumpBaddr (s : State) : s.bumpBaddr.params = s.params := rfl

@[simp] theorem State.bank_bumpBaddr (s : State) : s.bumpBaddr.bank = s.bank := rfl

@[simp] theorem State.arg0_bumpBaddr (s : State) : s.bumpBaddr.arg0 = s.arg0 := rfl

@[simp] theorem State.arg1_bumpBaddr (s : State) : s.bumpBaddr.arg1 = s.arg1 := rfl

@[simp] theorem State.res_bumpBaddr (s : State) : s.bumpBaddr.res = s.res := rfl

@[simp] theorem State.ibuf_bumpBaddr (s : State) : s.bumpBaddr.ibuf = s.ibuf := rfl

@[simp] theorem State.ilen_bumpBaddr (s : State) : s.bumpBaddr.ilen = s.ilen := rfl

@[simp] theorem State.obuf_bumpBaddr (s : State) : s.bumpBaddr.obuf = s.obuf := rfl

@[simp] theorem State.status_bumpBaddr (s : State) : s.bumpBaddr.status = s.status := rfl

@[simp] theorem State.info0_bumpBaddr (s : State) : s.bumpBaddr.info0 = s.info0 := rfl

@[simp] theorem State.info1_bumpBaddr (s : State) : s.bumpBaddr.info1 = s.info1 := rfl

@[simp] theorem State.bsel_bumpBaddr (s : State) : s.bumpBaddr.bsel = s.bsel := rfl

@[simp] theorem State.baddr_bumpBaddr (s : State) : s.bumpBaddr.baddr = s.baddr + 1 := rfl

@[simp] theorem State.host_bumpBaddr (s : State) : s.bumpBaddr.host = s.host := rfl

@[simp] theorem State.reply_bumpBaddr (s : State) : s.bumpBaddr.reply = s.reply := rfl

end Sys2Proof.Machine
end

