-- ==== Sys2Proof/Laws/Outcomes.lean ====
section
/-! SUPPORT. The shared operations, once each: what the three outcomes of a command leave, what each update
leaves alone, and how a command's outcome is shown. -/

namespace Sys2Proof.Machine

theorem InputsKept.refl (s : State) : InputsKept s s :=
  ⟨rfl, rfl, rfl, fun _ => rfl, rfl, rfl, rfl, rfl, rfl⟩

theorem InputsKept.trans {s t u : State} (h : InputsKept s t) (k : InputsKept t u) : InputsKept s u :=
  ⟨k.params.trans h.params, k.arg0.trans h.arg0, k.arg1.trans h.arg1,
    fun a => (k.ibuf a).trans (h.ibuf a), k.ilen.trans h.ilen, k.bsel.trans h.bsel,
    k.baddr.trans h.baddr, k.host.trans h.host, k.reply.trans h.reply⟩

theorem InputsKept.setBs (s : State) (r : RegIdx) (b : BitString) : InputsKept s (s.setBs r b) :=
  ⟨rfl, rfl, rfl, fun _ => rfl, rfl, rfl, rfl, rfl, rfl⟩

theorem InputsKept.setVal (s : State) (r : RegIdx) (xs : List Byte) : InputsKept s (s.setVal r xs) :=
  ⟨rfl, rfl, rfl, fun _ => rfl, rfl, rfl, rfl, rfl, rfl⟩

theorem InputsKept.setObuf (s : State) (xs : List Byte) : InputsKept s (s.setObuf xs) :=
  ⟨rfl, rfl, rfl, fun _ => rfl, rfl, rfl, rfl, rfl, rfl⟩

theorem InputsKept.setRes (s : State) (v : Word64) : InputsKept s (s.setRes v) :=
  ⟨rfl, rfl, rfl, fun _ => rfl, rfl, rfl, rfl, rfl, rfl⟩

theorem BankKept.refl (s : State) : BankKept s s := fun _ => rfl

theorem BankKeptBut.setBs (s : State) (r : RegIdx) (b : BitString) : BankKeptBut r s (s.setBs r b) :=
  fun q h => State.bs_setBs_ne s r q b h

theorem BankKeptBut.setVal (s : State) (r : RegIdx) (xs : List Byte) : BankKeptBut r s (s.setVal r xs) :=
  fun q h => State.bs_setVal_ne s r q xs h

/-- What the success outcome does to the state it is given (60_exceptions.md R262). -/
theorem succeed_spec (u : State) :
    ∃ t, succeed u = .next t ∧ SuccessOutcome u t ∧ InputsKept u t ∧
      t.bank = u.bank ∧ t.res = u.res ∧ t.obuf = u.obuf ∧ t.ibuf = u.ibuf :=
  ⟨_, rfl, ⟨rfl, rfl, rfl, rfl, rfl⟩, ⟨rfl, rfl, rfl, fun _ => rfl, rfl, rfl, rfl, rfl, rfl⟩,
    rfl, rfl, rfl, rfl⟩

/-- What the invalid-argument outcome does to the state it is given (60_exceptions.md R263). -/
theorem invalidArgument_spec (c : Cause) (i0 i1 : Nat) (u : State) :
    ∃ t, invalidArgument c i0 i1 u = .next t ∧
      InvalidOutcome c (BitVec.ofNat 32 i0) (BitVec.ofNat 32 i1) u t ∧ InputsKept u t ∧
      t.bank = u.bank ∧ t.res = u.res ∧ t.obuf = u.obuf ∧ t.ibuf = u.ibuf :=
  ⟨_, rfl, ⟨rfl, rfl, rfl, rfl, rfl⟩, ⟨rfl, rfl, rfl, fun _ => rfl, rfl, rfl, rfl, rfl, rfl⟩,
    rfl, rfl, rfl, rfl⟩

/-- What the fault outcome does to the state it is given (60_exceptions.md R264). -/
theorem raiseFault_spec (c : Cause) (i0 i1 : Nat) (u : State) :
    ∃ t, raiseFault c i0 i1 u = .next t ∧
      FaultOutcome c (BitVec.ofNat 32 i0) (BitVec.ofNat 32 i1) t ∧ InputsKept u t ∧
      t.bank = u.bank ∧ t.res = u.res ∧ t.obuf = u.obuf ∧ t.ibuf = u.ibuf :=
  ⟨_, rfl, ⟨rfl, rfl, rfl, rfl, rfl⟩, ⟨rfl, rfl, rfl, fun _ => rfl, rfl, rfl, rfl, rfl, rfl⟩,
    rfl, rfl, rfl, rfl⟩

/-- A command that ends in `succeed u` succeeds, with an effect that holds of every state with u's bank,
RES and OBUF. -/
theorem Succeeds.of_succeed {i : Instr} {s u : State} {effect : State → Prop}
    (h : exec i s = succeed u) (hk : InputsKept s u) (hf : u.status = s.status)
    (he : ∀ t : State, t.bank = u.bank → t.res = u.res → t.obuf = u.obuf → effect t) :
    Succeeds i s effect := by
  obtain ⟨t, ht, ho, hi, hb, hr, hu, -⟩ := succeed_spec u
  exact ⟨t, h.trans ht, ⟨ho.cause, ho.err, ho.fault.trans (by rw [hf]), ho.info0, ho.info1⟩,
    hk.trans hi, he t hb hr hu⟩

/-- A command that ends in `invalidArgument` on a state with the same bank rejects its argument. -/
theorem RejectsArgument.of_invalidArgument {i : Instr} {s u : State} {c : Cause} {i0 i1 : Nat}
    {effect : State → Prop} (h : exec i s = invalidArgument c i0 i1 u) (hk : InputsKept s u)
    (hf : u.status = s.status) (hb : u.bank = s.bank)
    (he : ∀ t : State, t.res = u.res → t.obuf = u.obuf → effect t) :
    RejectsArgument i s c (BitVec.ofNat 32 i0) (BitVec.ofNat 32 i1) effect := by
  obtain ⟨t, ht, ho, hi, hb', hr, hu, -⟩ := invalidArgument_spec c i0 i1 u
  exact ⟨t, h.trans ht, ⟨ho.cause, ho.err, ho.fault.trans (by rw [hf]), ho.info0, ho.info1⟩,
    hk.trans hi, fun r => State.bs_congr (hb'.trans hb) r, he t hr hu⟩

/-- A command that ends in `raiseFault` on its own state raises that fault precisely. -/
theorem RaisesFault.of_raiseFault {i : Instr} {s : State} {c : Cause} {i0 i1 : Nat}
    (h : exec i s = raiseFault c i0 i1 s) :
    RaisesFault i s c (BitVec.ofNat 32 i0) (BitVec.ofNat 32 i1) := by
  obtain ⟨t, ht, ho, hi, hb, hr, hu, -⟩ := raiseFault_spec c i0 i1 s
  exact ⟨t, h.trans ht, ho, hi, fun r => State.bs_congr hb r, hr, hu⟩

/-- The candidate sequence, cell by cell. -/
theorem candidate_eq_some_iff (s : State) (xs : List Byte) : s.candidate = some xs ↔ CandidateIs s xs := by
  simp [State.candidate, CandidateIs, Memory.bytes_eq_some_iff]

/-- The candidate sequence has no value exactly when one of its cells is unwritten. -/
theorem candidate_eq_none_iff (s : State) : s.candidate = none ↔ CandidateUnwritten s := by
  simp [State.candidate, CandidateUnwritten, Memory.bytes_eq_none_iff]

@[simp] theorem argLen_toNat (s : State) : s.argLen.toNat = lenArg s := by
  simp [State.argLen, lenArg]

@[simp] theorem argStart_eq (s : State) : s.argStart = startArg s := by
  simp [State.argStart, startArg]

@[simp] theorem argValue_eq (s : State) : s.argValue = s.arg0.toNat := rfl

@[simp] theorem argPos_eq (s : State) : s.argPos = s.arg0.toInt := rfl

end Sys2Proof.Machine
end

