-- ==== Sys2Proof/Laws/Exec.lean ====
section
/-! SUPPORT. What a command can do, said once: one inversion lemma over all commands, which the rules about
"every command" cite instead of unfolding the twelve meanings. -/

namespace Sys2Proof.Machine

/-- The states a successful command hands to `succeed`: the registers it may write, and no others. -/
inductive CommandWrites (s : State) : Instr → State → Prop where
  | whole (i : Instr) (rd : RegIdx) (b : BitString) (h : i.rd? = some rd) :
      CommandWrites s i (s.setBs rd b)
  | packed (xs : List Byte) : CommandWrites s .u2b (s.setObuf xs)
  | replaced (i : Instr) (rs : RegIdx) (xs : List Byte) (h : i = .updv rs ∨ i = .trunc rs)
      (hp : (s.bs rs).p = true) : CommandWrites s i ((s.setVal rs xs).setObuf xs)
  | result (i : Instr) (rs : RegIdx) (v : Word64) (h : i = .getbit rs ∨ i = .maxbit rs ∨ i = .touint rs) :
      CommandWrites s i (s.setRes v)
  | value (i : Instr) (rs : RegIdx) (xs : List Byte) (h : i = .fromuint rs ∨ i = .adduint rs)
      (hp : (s.bs rs).p = true) : CommandWrites s i (s.setVal rs xs)

/-- The states a command hands to `invalidArgument`: OBUF by UPDV and TRUNC, RES by GETBIT. -/
inductive RejectWrites (s : State) : Instr → State → Prop where
  | output (i : Instr) (rs : RegIdx) (xs : List Byte) (h : i = .updv rs ∨ i = .trunc rs) :
      RejectWrites s i (s.setObuf xs)
  | zeroResult (rs : RegIdx) : RejectWrites s (.getbit rs) (s.setRes 0)

/-- A register write or output a command makes before it ends (R263, R264, R266): every command stops on an
unwritten candidate cell, raises a fault on its own state, rejects its argument, or succeeds. -/
theorem exec_cases (i : Instr) (s : State) :
    (exec i s = .fault .uninitIbuf ∧ s.candidate = none ∧ ∃ r, i = .loadbs r ∨ i = .updv r) ∨
    (∃ c i0 i1, c.isFault = true ∧ c ≠ .illegal ∧ exec i s = raiseFault c i0 i1 s) ∨
    (∃ c i0 i1 u, c.isInvalid = true ∧ RejectWrites s i u ∧ exec i s = invalidArgument c i0 i1 u) ∨
    (∃ u, CommandWrites s i u ∧ exec i s = succeed u) := by
  cases i with
  | loadbs rd =>
    simp only [exec, execLoadbs]
    split
    · exact .inl ⟨rfl, ‹_›, rd, .inl rfl⟩
    · exact .inr (.inr (.inr ⟨_, .whole _ _ _ rfl, rfl⟩))
  | nullbs rd => exact .inr (.inr (.inr ⟨_, .whole _ _ _ rfl, rfl⟩))
  | newbs rd =>
    simp only [exec, execNewbs]
    split
    · exact .inr (.inl ⟨_, _, _, rfl, by decide, rfl⟩)
    · exact .inr (.inr (.inr ⟨_, .whole _ _ _ rfl, rfl⟩))
  | u2b =>
    simp only [exec, execU2b]
    split
    · exact .inr (.inl ⟨_, _, _, rfl, by decide, rfl⟩)
    · exact .inr (.inr (.inr ⟨_, .packed _, rfl⟩))
  | updv rs =>
    simp only [exec, execUpdv]
    split
    · exact .inr (.inr (.inl ⟨_, _, _, _, rfl, .output _ rs _ (.inl rfl), rfl⟩))
    · rename_i hp
      split
      · exact .inr (.inr (.inl ⟨_, _, _, _, rfl, .output _ rs _ (.inl rfl), rfl⟩))
      · split
        · exact .inl ⟨rfl, ‹_›, rs, .inr rfl⟩
        · exact .inr (.inr (.inr ⟨_, .replaced _ rs _ (.inl rfl) (by simpa using hp), rfl⟩))
  | trunc rs =>
    simp only [exec, execTrunc]
    split
    · exact .inr (.inr (.inl ⟨_, _, _, _, rfl, .output _ rs _ (.inr rfl), rfl⟩))
    · rename_i hp
      split
      · exact .inr (.inr (.inl ⟨_, _, _, _, rfl, .output _ rs _ (.inr rfl), rfl⟩))
      · split
        · exact .inr (.inr (.inl ⟨_, _, _, _, rfl, .output _ rs _ (.inr rfl), rfl⟩))
        · exact .inr (.inr (.inr ⟨_, .replaced _ rs _ (.inr rfl) (by simpa using hp), rfl⟩))
  | getbit rs =>
    simp only [exec, execGetbit]
    split
    · exact .inr (.inl ⟨_, _, _, rfl, by decide, rfl⟩)
    · split
      · exact .inr (.inr (.inl ⟨_, _, _, _, rfl, .zeroResult rs, rfl⟩))
      · split
        · exact .inr (.inl ⟨_, _, _, rfl, by decide, rfl⟩)
        · exact .inr (.inr (.inr ⟨_, .result _ rs _ (.inl rfl), rfl⟩))
  | maxbit rs =>
    simp only [exec, execMaxbit]
    split
    · exact .inr (.inl ⟨_, _, _, rfl, by decide, rfl⟩)
    · split
      · exact .inr (.inl ⟨_, _, _, rfl, by decide, rfl⟩)
      · exact .inr (.inr (.inr ⟨_, .result _ rs _ (.inr (.inl rfl)), rfl⟩))
  | touint rs =>
    simp only [exec, execTouint]
    split
    · exact .inr (.inl ⟨_, _, _, rfl, by decide, rfl⟩)
    · split
      · exact .inr (.inl ⟨_, _, _, rfl, by decide, rfl⟩)
      · exact .inr (.inr (.inr ⟨_, .result _ rs _ (.inr (.inr rfl)), rfl⟩))
  | fromuint rs =>
    simp only [exec, execFromuint]
    split
    · exact .inr (.inl ⟨_, _, _, rfl, by decide, rfl⟩)
    · rename_i hp
      split
      · exact .inr (.inl ⟨_, _, _, rfl, by decide, rfl⟩)
      · exact .inr (.inr (.inr ⟨_, .value _ rs _ (.inl rfl) (by simpa using hp), rfl⟩))
  | adduint rs =>
    simp only [exec, execAdduint]
    split
    · exact .inr (.inl ⟨_, _, _, rfl, by decide, rfl⟩)
    · rename_i hp
      split
      · exact .inr (.inl ⟨_, _, _, rfl, by decide, rfl⟩)
      · split
        · exact .inr (.inl ⟨_, _, _, rfl, by decide, rfl⟩)
        · split
          · exact .inr (.inl ⟨_, _, _, rfl, by decide, rfl⟩)
          · exact .inr (.inr (.inr ⟨_, .value _ rs _ (.inr rfl) (by simpa using hp), rfl⟩))
  | subbs rd rs =>
    simp only [exec, execSubbs]
    split
    · exact .inr (.inl ⟨_, _, _, rfl, by decide, rfl⟩)
    · split
      · exact .inr (.inl ⟨_, _, _, rfl, by decide, rfl⟩)
      · split
        · exact .inr (.inl ⟨_, _, _, rfl, by decide, rfl⟩)
        · split
          · exact .inr (.inl ⟨_, _, _, rfl, by decide, rfl⟩)
          · exact .inr (.inr (.inr ⟨_, .whole _ _ _ rfl, rfl⟩))

/-- The state a successful command writes keeps every input and STATUS. -/
theorem CommandWrites.inputs {s u : State} {i : Instr} (h : CommandWrites s i u) :
    InputsKept s u ∧ u.status = s.status := by
  cases h with
  | whole _ rd b h => exact ⟨.setBs s rd b, rfl⟩
  | packed xs => exact ⟨.setObuf s xs, rfl⟩
  | replaced _ rs xs h hp => exact ⟨(InputsKept.setVal s rs xs).trans (.setObuf _ xs), rfl⟩
  | result _ rs v h => exact ⟨.setRes s v, rfl⟩
  | value _ rs xs h hp => exact ⟨.setVal s rs xs, rfl⟩

/-- The state a rejecting command writes keeps every input, STATUS and the bank. -/
theorem RejectWrites.inputs {s u : State} {i : Instr} (h : RejectWrites s i u) :
    InputsKept s u ∧ u.status = s.status ∧ u.bank = s.bank := by
  cases h with
  | output _ rs xs h => exact ⟨.setObuf s xs, rfl, rfl⟩
  | zeroResult rs => exact ⟨.setRes s 0, rfl, rfl⟩

end Sys2Proof.Machine
end

