-- ==== Sys2Proof/Laws/PerInstr.lean ====
section
/-! SUPPORT. A statement about every command as syntax: the fields of its word (30_encoding.md R120, R124). -/

namespace Sys2Proof.Laws.Encoding

/-- The opcode of each command (30_encoding.md R124). -/
def opcode : Instr → BitVec 8
  | .loadbs _ => 0x01
  | .nullbs _ => 0x02
  | .newbs _ => 0x03
  | .u2b => 0x04
  | .updv _ => 0x05
  | .trunc _ => 0x06
  | .getbit _ => 0x07
  | .maxbit _ => 0x08
  | .touint _ => 0x09
  | .fromuint _ => 0x0A
  | .adduint _ => 0x0B
  | .subbs _ _ => 0x0C

/-- Bits 31:16 are 0, `opc` is the command's opcode, each register field used holds its register and each
one not used is 0. -/
def Statement (i : Instr) : Prop :=
  fieldZero (encode i) = 0 ∧ fieldOpc (encode i) = opcode i ∧
  fieldRd (encode i) = i.rd?.getD 0 ∧ fieldRs (encode i) = i.rs?.getD 0

/-- The fields of a command word, bit for bit. -/
theorem commandWord_fields (rs rd : RegIdx) (opc : BitVec 8) :
    fieldZero (commandWord rs rd opc) = 0 ∧ fieldOpc (commandWord rs rd opc) = opc ∧
    fieldRd (commandWord rs rd opc) = rd ∧ fieldRs (commandWord rs rd opc) = rs := by
  refine ⟨?_, ?_, ?_, ?_⟩ <;>
  · apply BitVec.eq_of_getLsbD_eq
    intro j hj
    simp only [fieldZero, fieldOpc, fieldRd, fieldRs, commandWord, BitVec.getLsbD_extractLsb',
      BitVec.getLsbD_append]
    interval_cases j <;> simp

theorem loadbs (rd : RegIdx) : Statement (.loadbs rd) := commandWord_fields 0 rd 0x01
theorem nullbs (rd : RegIdx) : Statement (.nullbs rd) := commandWord_fields 0 rd 0x02
theorem newbs (rd : RegIdx) : Statement (.newbs rd) := commandWord_fields 0 rd 0x03
theorem u2b : Statement .u2b := commandWord_fields 0 0 0x04
theorem updv (rs : RegIdx) : Statement (.updv rs) := commandWord_fields rs 0 0x05
theorem trunc (rs : RegIdx) : Statement (.trunc rs) := commandWord_fields rs 0 0x06
theorem getbit (rs : RegIdx) : Statement (.getbit rs) := commandWord_fields rs 0 0x07
theorem maxbit (rs : RegIdx) : Statement (.maxbit rs) := commandWord_fields rs 0 0x08
theorem touint (rs : RegIdx) : Statement (.touint rs) := commandWord_fields rs 0 0x09
theorem fromuint (rs : RegIdx) : Statement (.fromuint rs) := commandWord_fields rs 0 0x0A
theorem adduint (rs : RegIdx) : Statement (.adduint rs) := commandWord_fields rs 0 0x0B
theorem subbs (rd rs : RegIdx) : Statement (.subbs rd rs) := commandWord_fields rs rd 0x0C

end Sys2Proof.Laws.Encoding
end

