-- ==== Sys2Proof/Laws/Step.lean ====
section
/-! SUPPORT. What a step can do, said once: the access of each kind of event, and one inversion lemma over all
of them, which the rules about "every step" cite instead of unfolding the bus. -/

namespace Sys2Proof.Machine

/-- The state an access is served on: the event taken off the host's list. -/
theorem step_idle {s : State} (h : s.host = []) : step s = .next { s with reply := none } := by
  have h1 : takeEvent s = .next (idle s) := by
    unfold takeEvent
    split
    · rfl
    · simp_all
  exact h1

theorem step_read {s : State} {a : Offset} {rest : List HostEvent} (h : s.host = .read a :: rest) :
    step s = memRead a { s with host := rest } := by
  unfold step takeEvent
  rw [h]
  rfl

theorem step_write {s : State} {a : Offset} {v : Word32} {rest : List HostEvent}
    (h : s.host = .write a v :: rest) :
    step s = memWrite a v { s with host := rest, reply := some .written } := by
  unfold step takeEvent
  rw [h]
  rfl

theorem step_resetPulse {s : State} {rest : List HostEvent} (h : s.host = .resetPulse :: rest) :
    step s = .next { State.resetFor s.params with host := rest } := by
  unfold step takeEvent
  rw [h]
  rfl

theorem aligned_iff (a : Offset) : aligned a = true ↔ a.toNat % 4 = 0 := by simp [aligned]

/-- A read of an aligned offset other than BDATA. -/
theorem memRead_of_ne {a : Offset} {s : State} (ha : a.toNat % 4 = 0) (hb : windowReg a ≠ .bdata) :
    memRead a s = .next (s.answer (peek s (windowReg a))) := by
  simp [memRead, (aligned_iff a).2 ha, hb]

/-- A write of an aligned offset other than CMD. -/
theorem memWrite_of_ne {a : Offset} {v : Word32} {s : State} (ha : a.toNat % 4 = 0)
    (hc : windowReg a ≠ .cmd) : memWrite a v s = .next (writeReg (windowReg a) v s) := by
  simp [memWrite, (aligned_iff a).2 ha, hc]

/-- A write of CMD runs a command (30_encoding.md R126). -/
theorem memWrite_cmd (v : Word32) (s : State) : memWrite 0x00C v s = runCommand v s := rfl

/-- A read of BDATA (20_memory.md R95). -/
theorem memRead_bdata (s : State) : memRead 0x058 s = readBdata s := rfl

/-- A misaligned access is refused (20_memory.md R83). -/
theorem memRead_misaligned {a : Offset} {s : State} (ha : a.toNat % 4 ≠ 0) :
    memRead a s = .refused .misaligned := by
  simp [memRead, show aligned a = false by simp [aligned, ha]]

theorem memWrite_misaligned {a : Offset} {v : Word32} {s : State} (ha : a.toNat % 4 ≠ 0) :
    memWrite a v s = .refused .misaligned := by
  simp [memWrite, show aligned a = false by simp [aligned, ha]]

/-- What a read of BDATA answers when it does not stop: BADDR incremented and one word on the bus. -/
theorem readBdata_next {s t : State} (h : readBdata s = .next t) : ∃ v, t = s.bumpBaddr.answer v := by
  simp only [readBdata] at h
  split at h
  · exact ⟨_, (Host.Outcome.next.inj h).symm⟩
  · split at h
    · exact ⟨_, (Host.Outcome.next.inj h).symm⟩
    · split at h
      · exact ⟨_, (Host.Outcome.next.inj h).symm⟩
      · split at h
        · cases h
        · exact ⟨_, (Host.Outcome.next.inj h).symm⟩

/-- What no register write changes (20_memory.md R86): everything but ARG0, ARG1, ILEN, BSEL, BADDR and
IBUF. -/
structure WindowKept (s t : State) : Prop where
  params : t.params = s.params
  bank : t.bank = s.bank
  res : t.res = s.res
  obuf : t.obuf = s.obuf
  status : t.status = s.status
  info0 : t.info0 = s.info0
  info1 : t.info1 = s.info1
  host : t.host = s.host
  reply : t.reply = s.reply

theorem WindowKept.ite {c : Prop} [Decidable c] {s t u : State} (ht : WindowKept s t) (hu : WindowKept s u) :
    WindowKept s (if c then t else u) := by
  split <;> assumption

theorem writeBdata_kept (v : Word32) (s : State) : WindowKept s (writeBdata v s) :=
  .ite ⟨rfl, rfl, rfl, rfl, rfl, rfl, rfl, rfl, rfl⟩ ⟨rfl, rfl, rfl, rfl, rfl, rfl, rfl, rfl, rfl⟩

/-- A register write leaves alone what the window cannot write. -/
theorem writeReg_kept (r : WindowReg) (v : Word32) (s : State) : WindowKept s (writeReg r v s) := by
  cases r with
  | ilen => exact .ite ⟨rfl, rfl, rfl, rfl, rfl, rfl, rfl, rfl, rfl⟩ ⟨rfl, rfl, rfl, rfl, rfl, rfl, rfl, rfl, rfl⟩
  | bsel => exact .ite ⟨rfl, rfl, rfl, rfl, rfl, rfl, rfl, rfl, rfl⟩ ⟨rfl, rfl, rfl, rfl, rfl, rfl, rfl, rfl, rfl⟩
  | bdata => exact writeBdata_kept v s
  | _ => exact ⟨rfl, rfl, rfl, rfl, rfl, rfl, rfl, rfl, rfl⟩

/-- Everything a step that answers a next state can have done. -/
inductive StepShape (s t : State) : Prop where
  | idle (h : s.host = []) (ht : t = { s with reply := none })
  | reset (rest : List HostEvent) (h : s.host = .resetPulse :: rest)
      (ht : t = { State.resetFor s.params with host := rest })
  | peeked (a : Offset) (v : Word32) (rest : List HostEvent) (h : s.host = .read a :: rest)
      (ht : t = { s with host := rest, reply := some (.data v) })
  | byteRead (a : Offset) (v : Word32) (rest : List HostEvent) (h : s.host = .read a :: rest)
      (hr : windowReg a = .bdata)
      (ht : t = { s with host := rest, baddr := s.baddr + 1, reply := some (.data v) })
  | wrote (a : Offset) (v : Word32) (rest : List HostEvent) (h : s.host = .write a v :: rest)
      (ht : t = writeReg (windowReg a) v { s with host := rest, reply := some .written })
  | ignored (a : Offset) (w : Word32) (rest : List HostEvent) (h : s.host = .write a w :: rest)
      (hf : s.status.fault = true) (ht : t = { s with host := rest, reply := some .written })
  | illegal (a : Offset) (w : Word32) (rest : List HostEvent) (h : s.host = .write a w :: rest)
      (hf : s.status.fault = false)
      (ht : illegalWord w { s with host := rest, reply := some .written } = .next t)
  | command (a : Offset) (w : Word32) (i : Instr) (rest : List HostEvent) (h : s.host = .write a w :: rest)
      (hf : s.status.fault = false) (hd : decode w = .ok i) (hw : i.wellFormed s.params.nbs = true)
      (ht : exec i { s with host := rest, reply := some .written } = .next t)

/-- The inversion lemma of `step`. -/
theorem step_cases {s t : State} (h : step s = .next t) : StepShape s t := by
  cases hh : s.host with
  | nil =>
    rw [step_idle hh] at h
    exact .idle hh (Host.Outcome.next.inj h).symm
  | cons e rest =>
    cases e with
    | resetPulse =>
      rw [step_resetPulse hh] at h
      exact .reset rest hh (Host.Outcome.next.inj h).symm
    | read a =>
      rw [step_read hh] at h
      by_cases ha : a.toNat % 4 = 0
      · by_cases hb : windowReg a = .bdata
        · simp only [memRead, (aligned_iff a).2 ha, hb, if_true] at h
          obtain ⟨v, hv⟩ := readBdata_next h
          exact .byteRead a v rest hh hb hv
        · rw [memRead_of_ne ha hb] at h
          exact .peeked a _ rest hh (Host.Outcome.next.inj h).symm
      · rw [memRead_misaligned ha] at h; cases h
    | write a v =>
      rw [step_write hh] at h
      by_cases ha : a.toNat % 4 = 0
      · by_cases hc : windowReg a = .cmd
        · simp only [memWrite, (aligned_iff a).2 ha, hc, if_true, runCommand] at h
          split at h
          · exact .ignored a v rest hh ‹_› (Host.Outcome.next.inj h).symm
          · rename_i hf
            have hf : s.status.fault = false := by simpa using hf
            split at h
            · exact .illegal a v rest hh hf h
            · rename_i i hd
              split at h
              · exact .command a v i rest hh hf hd ‹_› h
              · exact .illegal a v rest hh hf h
        · rw [memWrite_of_ne ha hc] at h
          exact .wrote a v rest hh (Host.Outcome.next.inj h).symm
      · rw [memWrite_misaligned ha] at h; cases h

end Sys2Proof.Machine
end

