-- ==== Sys2Proof/Tests/Slice0.lean ====
section
/-! SUPPORT. The model's own tests, with results from spec/95_test_vectors.md and the tables of the rules, and for
every statement that has hypotheses a witness: concrete states and operands that meet them. -/

namespace Sys2Proof.Tests

open Sys2Proof Sys2Proof.Machine

/-! ## Helpers -/

/-- A present register. -/
def present (len : Nat) (bytes : List Byte) : BitString :=
  { p := true, len := BitVec.ofNat 32 len, val := bytes }

/-- The reset state with ARG0 and ARG1 set (SETARG0, SETARG1). -/
def args (a0 a1 : Word64) : State := { State.reset with arg0 := a0, arg1 := a1 }

/-- The reset state with ARG0 and ARG1 set and `B[0]` written (LITERAL b0). -/
def source (b : BitString) (a0 a1 : Word64) : State := (args a0 a1).setBs 0 b

/-- `s` with candidate bytes in IBUF and ILEN set. -/
def feed (cells : Memory) (n : Word32) (s : State) : State := { s with ibuf := cells, ilen := n }

/-- `s` in a block with other parameters. -/
def built (p : Params) (s : State) : State := { s with params := p }

/-- The default parameters with VMAX = 4. -/
def small : Params := { Params.defaults with vmax := 4 }

/-- The default parameters with another SUB_ORDER. -/
def ordered (order : SubOrder) : Params := { Params.defaults with subOrder := order }

/-- The default parameters with U2B_MASK = 0. -/
def unmasked : Params := { Params.defaults with u2bMask := false }

/-- `s` with one event of the outside world pending. -/
def pending (e : HostEvent) (s : State) : State := { s with host := [e] }

/-- A faulted block. -/
def faulted : State :=
  { State.reset with status := { cause := .illegal, err := false, fault := true }, info0 := 0xFF }

/-- What is seen of the next state, if there is one. -/
def seen {α : Type} (f : State → α) : Result → Option α
  | .next t => some (f t)
  | .fault _ => none
  | .refused _ => none

/-- STATUS, INFO0, INFO1 as the host reads them. -/
def outcomeWords (t : State) : Word32 × Word32 × Word32 := (t.status.word, t.info0, t.info1)

/-- The register BSEL, BADDR and the bus answer after an access. -/
def replyAndAddr (t : State) : Option Reply × Word32 := (t.reply, t.baddr)

/-! ## Well-formedness: NBS is 4, so register 4 does not exist (30_encoding.md R126) -/

theorem test_wf_rd_refused :
    (Instr.loadbs 4).wellFormed 4 = false ∧ (Instr.nullbs 15).wellFormed 4 = false ∧
    (Instr.newbs 4).wellFormed 4 = false ∧ (Instr.subbs 12 0).wellFormed 4 = false := by decide

theorem test_wf_rs_refused :
    (Instr.updv 4).wellFormed 4 = false ∧ (Instr.getbit 4).wellFormed 4 = false ∧
    (Instr.subbs 0 4).wellFormed 4 = false ∧ (Instr.adduint 15).wellFormed 15 = false := by decide

theorem test_wf_accepted :
    (Instr.subbs 3 3).wellFormed 4 = true ∧ Instr.u2b.wellFormed 1 = true ∧
    (Instr.getbit 4).wellFormed 16 = true ∧ (Instr.newbs 15).wellFormed 16 = true := by decide

/-! ## Decoding: one word a command, bits 31:16, rs, rd, opc written out (30_encoding.md R120, R124) -/

theorem test_decode_loadbs : decode 0b00000000000000000000001100000001 = .ok (.loadbs 3) := rfl
theorem test_decode_nullbs : decode 0b00000000000000000000001000000010 = .ok (.nullbs 2) := rfl
theorem test_decode_newbs : decode 0b00000000000000000000000100000011 = .ok (.newbs 1) := rfl
theorem test_decode_u2b : decode 0b00000000000000000000000000000100 = .ok .u2b := rfl
theorem test_decode_updv : decode 0b00000000000000000001000000000101 = .ok (.updv 1) := rfl
theorem test_decode_trunc : decode 0b00000000000000000010000000000110 = .ok (.trunc 2) := rfl
theorem test_decode_getbit : decode 0b00000000000000000011000000000111 = .ok (.getbit 3) := rfl
theorem test_decode_maxbit : decode 0b00000000000000001000000000001000 = .ok (.maxbit 8) := rfl
theorem test_decode_touint : decode 0b00000000000000000010000000001001 = .ok (.touint 2) := rfl
theorem test_decode_fromuint : decode 0b00000000000000000100000000001010 = .ok (.fromuint 4) := rfl
theorem test_decode_adduint : decode 0b00000000000000001111000000001011 = .ok (.adduint 15) := rfl
theorem test_decode_subbs : decode 0b00000000000000000010000100001100 = .ok (.subbs 1 2) := rfl

/-- The reserved words of 30_encoding.md R127, by name. -/
theorem test_decode_illegal :
    decode 0x00000000 = .error .opcode ∧ decode 0x0000000D = .error .opcode ∧
    decode 0x000000FF = .error .opcode ∧ decode 0x00010007 = .error .highHalf ∧
    decode 0x00000107 = .error .unusedRd ∧ decode 0x00001004 = .error .unusedRs ∧
    decode 0x00000104 = .error .unusedRd ∧ decode 0x00001003 = .error .unusedRs :=
  ⟨rfl, rfl, rfl, rfl, rfl, rfl, rfl, rfl⟩

/-- The opcode table's words, with rd = 0 and rs = 0. -/
theorem test_table_words :
    (List.range 14).map (decodeTableWord 32) =
      [none, some (.loadbs 0), some (.nullbs 0), some (.newbs 0), some .u2b, some (.updv 0),
       some (.trunc 0), some (.getbit 0), some (.maxbit 0), some (.touint 0), some (.fromuint 0),
       some (.adduint 0), some (.subbs 0 0), none] := by decide

/-- The first step after reset runs the word it is given: NULLBS b0 succeeds, GETBIT b0 of a null register
raises NULLRCV, an illegal word raises ILLEGAL (V6 row 3). -/
theorem test_first_step :
    seen outcomeWords (step (State.reset.withFetchWord 32 0x2)) = some (0x000, 0, 0) ∧
    seen outcomeWords (step (State.reset.withFetchWord 32 0x7)) = some (0x209, 0, 0) ∧
    seen outcomeWords (step (State.reset.withFetchWord 32 0xFF)) = some (0x208, 0xFF, 0) := by decide

/-- V6 rows 6, 7 and 9: illegal by a register that does not exist, under NBS = 4. -/
theorem test_illegal_register :
    seen outcomeWords (step (State.reset.withFetchWord 32 0x4007)) = some (0x208, 0x4007, 0) ∧
    seen outcomeWords (step (State.reset.withFetchWord 32 0x403)) = some (0x208, 0x403, 0) ∧
    seen outcomeWords (step (State.reset.withFetchWord 32 0xC0C)) = some (0x208, 0xC0C, 0) := by decide

/-- The written form, mnemonics in any case (30_encoding.md R131). -/
theorem test_assemble :
    assemble "SUBBS b1, b2".toList = some (.subbs 1 2) ∧ assemble "u2b".toList = some .u2b ∧
    assemble "GetBit b3".toList = some (.getbit 3) ∧ assemble "NEWBS b16".toList = none := by decide

/-! ## One or two steps of every command -/

/-- V1.1 row 1: no check of the byte count. -/
theorem test_loadbs_unchecked :
    seen (·.bs 0) (exec (.loadbs 0) (feed [(0, 0x12), (1, 0x34), (2, 0x56)] 3 (args 0 8))) =
      some (present 8 [0x12, 0x34, 0x56]) := by decide

/-- V1.1 rows 3 and 4: an unwritten cell; ARG1[63:32] is ignored. -/
theorem test_loadbs_unwritten :
    exec (.loadbs 0) (feed [] 1 (args 0 8)) = .fault .uninitIbuf ∧
    seen (·.bs 0) (exec (.loadbs 0) (feed [(0, 0xFF)] 1 (args 0 0x0000DEAD00000004))) =
      some (present 4 [0xFF]) := ⟨rfl, by decide⟩

/-- V1.2 row 1. -/
theorem test_nullbs :
    seen (·.bs 0) (exec (.nullbs 0) (source (present 8 [5]) 0 0)) = some BitString.null := by decide

/-- V1.3 rows 11 and 9. -/
theorem test_newbs_masks :
    seen (·.bs 2) (exec (.newbs 2) (args 0xABCDEF 20)) = some (present 20 [0x0B, 0xCD, 0xEF]) ∧
    seen (·.bs 2) (exec (.newbs 2) (args 0xFFFFFFFFFFFFFFFF 72)) =
      some (present 72 [0x00, 0xFF, 0xFF, 0xFF, 0xFF, 0xFF, 0xFF, 0xFF, 0xFF]) := by decide

/-- V1.4 row 1. -/
theorem test_newbs_capacity :
    seen outcomeWords (exec (.newbs 0) (built small (args 1 33))) = some (0x20D, 5, 4) := by decide

/-- V1.3 row 11 under both settings of U2B_MASK. -/
theorem test_u2b_mask :
    seen (·.obuf) (exec .u2b (args 0xABCDEF 20)) = some [0x0B, 0xCD, 0xEF] ∧
    seen (·.obuf) (exec .u2b (built unmasked (args 0xABCDEF 20))) = some [0xAB, 0xCD, 0xEF] := by decide

/-- V1.4 row 2. -/
theorem test_u2b_capacity :
    seen outcomeWords (exec .u2b (built small (args 1 40))) = some (0x20D, 5, 4) := by decide

/-- E4 step 3. -/
theorem test_updv_replaces :
    seen (fun t => (t.bs 0, t.obuf))
      (exec (.updv 0) (feed [(0, 1), (1, 2), (2, 3)] 3 (source (present 22 []) 0 0))) =
      some (present 22 [1, 2, 3], [1, 2, 3]) := by decide

/-- V2.1 row 5: LENGTH comes before the unwritten cell; OBUF takes the old bytes (row 2). -/
theorem test_updv_length :
    seen (fun t => (outcomeWords t, t.obuf))
      (exec (.updv 0) (feed [] 1 (source (present 16 [0xAA, 0xBB]) 0 0))) =
      some ((0x102, 1, 2), [0xAA, 0xBB]) := by decide

/-- V2.2 row 7: the LOW bits of the last byte are cleared. -/
theorem test_trunc_low_end :
    seen (fun t => (t.bs 0, t.obuf)) (exec (.trunc 0) (source (present 10 [0x03, 0xFF]) 0 0)) =
      some (present 10 [0x03, 0xC0], [0x03, 0xC0]) := by decide

/-- V2.2 rows 3 and 4: ZEROLEN before LENGTH; LENGTH with its INFO words. -/
theorem test_trunc_rejects :
    seen outcomeWords (exec (.trunc 0) (source (present 0 [0xFF]) 0 0)) = some (0x103, 0, 0) ∧
    seen outcomeWords (exec (.trunc 0) (source (present 12 [0xFF]) 0 0)) = some (0x102, 1, 2) := by decide

/-- E1 and V3.1 row 4. -/
theorem test_getbit_bits :
    seen (·.res) (exec (.getbit 0) (source (present 4 [0x07]) 2 0)) = some 1 ∧
    seen (·.res) (exec (.getbit 0) (source (present 4 [0x07]) 3 0)) = some 0 ∧
    seen (·.res) (exec (.getbit 0) (source (present 16 [0x80, 0x01]) 15 0)) = some 1 := by decide

/-- V3.1 rows 6 and 7, V3.2 row 6. -/
theorem test_getbit_stops :
    seen outcomeWords (exec (.getbit 0) (source (present 16 [0x80, 0x01]) 0x10000000000 0)) =
      some (0x104, 0, 0x100) ∧
    seen outcomeWords (exec (.getbit 0) (source (present 16 [0x80, 0x01]) 0xFFFFFFFFFFFFFFFB 0)) =
      some (0x104, 0xFFFFFFFB, 0xFFFFFFFF) ∧
    seen outcomeWords (exec (.getbit 0) (source (present 16 [0x01]) 8 0)) = some (0x20A, 8, 1) := by decide

/-- V3.2 rows 9, 2 and 4. -/
theorem test_maxbit :
    seen (·.res) (exec (.maxbit 0) (source (present 8 [0x12, 0x34, 0x56]) 0 0)) = some 6 ∧
    seen (·.res) (exec (.maxbit 0) (source (present 4 [0xF0]) 0 0)) = some 0xFFFFFFFFFFFFFFFF ∧
    seen (·.res) (exec (.maxbit 0) (source (present 0 []) 0 0)) = some 0xFFFFFFFFFFFFFFFF := by decide

/-- V3.2 row 7. -/
theorem test_maxbit_byteidx :
    seen outcomeWords (exec (.maxbit 0) (source (present 16 [0x01]) 0 0)) = some (0x20A, 15, 1) := by decide

/-- V4 rows 1 and 4: every stored bit, no mask. -/
theorem test_touint_folds :
    seen (·.res) (exec (.touint 0) (source (present 4 [0xFF]) 0 0)) = some 0xFF ∧
    seen (·.res) (exec (.touint 0)
      (source (present 72 [0x00, 0xFF, 0xFF, 0xFF, 0xFF, 0xFF, 0xFF, 0xFF, 0xFF]) 0 0)) =
      some 0xFFFFFFFFFFFFFFFF := by decide

/-- V4 rows 5 and 18. -/
theorem test_touint_faults :
    seen outcomeWords (exec (.touint 0) (source (present 72 [1, 0, 0, 0, 0, 0, 0, 0, 0]) 0 0)) =
      some (0x20B, 0, 0) ∧
    seen outcomeWords (exec (.touint 2) State.reset) = some (0x209, 2, 0) := by decide

/-- V4 row 7. -/
theorem test_fromuint_masks :
    seen (·.bs 0) (exec (.fromuint 0) (source (present 12 [0xAB, 0xCD]) 0xFFFF 0)) =
      some (present 12 [0x0F, 0xFF]) := by decide

/-- V4 row 9. -/
theorem test_fromuint_invariant :
    seen outcomeWords (exec (.fromuint 0) (source (present 12 [0xAB]) 1 0)) = some (0x20C, 1, 2) := by decide

/-- E3 and V4 rows 10 and 11: the sum wraps modulo 2^LEN. -/
theorem test_adduint_wraps :
    seen (·.bs 0) (exec (.adduint 0) (source (present 10 [0x03, 0xFF]) 1 0)) =
      some (present 10 [0x00, 0x00]) ∧
    seen (·.bs 0) (exec (.adduint 0) (source (present 4 [0xFF]) 1 0)) = some (present 4 [0x00]) ∧
    seen (·.bs 0) (exec (.adduint 0)
      (source (present 64 [0xFF, 0xFF, 0xFF, 0xFF, 0xFF, 0xFF, 0xFF, 0xFF]) 1 0)) =
      some (present 64 [0, 0, 0, 0, 0, 0, 0, 0]) := by decide

/-- V4 row 16, and row 14 on 72 bits. -/
theorem test_adduint_width :
    seen outcomeWords (exec (.adduint 0) (source (present 72 [1, 0, 0, 0, 0, 0, 0, 0, 0]) 0 0)) =
      some (0x20B, 0, 0) ∧
    seen outcomeWords (exec (.adduint 0)
      (source (present 72 [0, 0xFF, 0xFF, 0xFF, 0xFF, 0xFF, 0xFF, 0xFF, 0xFF]) 1 0)) =
      some (0x20B, 0, 1) := by decide

/-- V5.1, the row (3, 10), under the three orders. -/
theorem test_subbs_orders :
    seen (·.bs 1) (exec (.subbs 1 0) (source (present 16 [0xB5, 0x3C]) 3 10)) =
      some (present 10 [0x03, 0x95]) ∧
    seen (·.bs 1) (exec (.subbs 1 0)
      (built (ordered .byteMsbBitLsb) (source (present 16 [0xB5, 0x3C]) 3 10))) =
      some (present 10 [0x03, 0xA9]) ∧
    seen (·.bs 1) (exec (.subbs 1 0)
      (built (ordered .straight) (source (present 16 [0xB5, 0x3C]) 3 10))) =
      some (present 10 [0x02, 0xA7]) := by decide

/-- V5.2 rows 2, 3 and 4: no wrap, BYTEIDX, rd = rs. -/
theorem test_subbs_corners :
    seen (·.bs 1) (exec (.subbs 1 0) (source (present 16 [0xB5, 0x3C]) 0xFFFFFFFF 2)) =
      some (present 2 [0x00]) ∧
    seen outcomeWords (exec (.subbs 1 0) (source (present 16 [0x01]) 4 8)) = some (0x20A, 8, 1) ∧
    seen (·.bs 0) (exec (.subbs 0 0) (source (present 16 [0xB5, 0x3C]) 8 8)) =
      some (present 8 [0xAD]) := by decide

/-- STATUS of each outcome, by R260's table and R265's sum: the invalid-argument causes NULL, LENGTH, ZEROLEN and
RANGE, then the fault causes ILLEGAL to ZEROSLICE. -/
theorem test_status_codes :
    ([Cause.null, .length, .zeroLen, .range].map fun c => (Status.invalidated State.reset.status c).word) =
      [0x101, 0x102, 0x103, 0x104] ∧
    ([Cause.illegal, .nullRcv, .byteIdx, .width, .invariant, .capacity, .zeroSlice].map fun c =>
      (Status.faulted c).word) = [0x208, 0x209, 0x20A, 0x20B, 0x20C, 0x20D, 0x20E] := by decide

/-- The boot sequence of R295: the reads of ID, CAPS, VMAXR and STATUS and no other operation. -/
theorem test_boot_sequence :
    bootSequence = [.lw 1 0x000, .lw 2 0x004, .lw 3 0x008, .lw 4 0x010] := by decide

/-! ## The register window (95_test_vectors.md section 3) -/

/-- Rows 1 to 3. -/
theorem test_window_constants :
    seen (·.reply) (step (pending (.read 0x000) State.reset)) = some (some (.data 0x42465801)) ∧
    seen (·.reply) (step (pending (.read 0x004) State.reset)) = some (some (.data 0x00014004)) ∧
    seen (·.reply) (step (pending (.read 0x008) State.reset)) = some (some (.data 0x20000000)) := by decide

/-- Rows 5 and 6: an illegal value of a WARL register is ignored. -/
theorem test_window_warl :
    seen (·.ilen) (step (pending (.write 0x040 0x7FFFFFFF) State.reset)) = some 0 ∧
    seen (·.bsel) (step (pending (.write 0x050 5) State.reset)) = some 0 ∧
    seen (·.bsel) (step (pending (.write 0x050 17) State.reset)) = some 17 := by decide

/-- Rows 7 and 11: past the end of an empty OBUF; an unwritten IBUF cell. -/
theorem test_window_bdata :
    seen replyAndAddr (step (pending (.read 0x058) { State.reset with bsel := 17 })) =
      some (some (.data 0), 1) ∧
    step (pending (.read 0x058) { State.reset with bsel := 16 }) = .fault .uninitHostRead :=
  ⟨by decide, rfl⟩

/-- A byte written through BDATA lands in IBUF and BADDR moves on (20_memory.md R95). -/
theorem test_window_put_byte :
    seen (fun t => (t.ibuf, t.baddr))
      (step (pending (.write 0x058 0x1AB) { State.reset with bsel := 16, baddr := 7 })) =
      some ([(7, 0xAB)], 8) := by decide

/-- Row 12, and row 13 from a faulted block. -/
theorem test_refused_and_reset :
    step (pending (.read 0x002) State.reset) = .refused .misaligned ∧
    step (pending .resetPulse faulted) = .next State.reset := ⟨rfl, rfl⟩

/-- A half of ARG0 keeps the other half (20_memory.md R89). -/
theorem test_arg_halves :
    seen (·.arg0) (step (pending (.write 0x024 0x1) (args 0xAAAAAAAABBBBBBBB 0))) =
      some 0x1BBBBBBBB := by decide

/-- The cells written through IBUF stay sorted (10_state.md R40). -/
theorem test_memory_canonical :
    Memory.write (Memory.write (Memory.write [] 5 1) 2 7) 5 9 = [(2, 7), (5, 9)] := by decide

/-- P5: an illegal word, and the block ignores the later NEWBS (30_encoding.md R127, R128, R132). -/
theorem test_program_p5 :
    (match hostRun 4 (hostStart [.sw (.imm 0xFF) 0x00C, .lw 1 0x010, .sw (.imm 0x3) 0x00C, .lw 2 0x100]
        State.reset) with
      | .ok h => some (h.reg 1, h.reg 2)
      | .error _ => none) = some (0x208, 0) := by decide

/-! ## Witnesses: the hypotheses of each statement can be met, each clause at a boundary of its range -/

/-- The highest legal word of a block with 16 registers. -/
theorem witness_EncodeInvertsDecode : decode 0x0000FF0C = .ok (.subbs 15 15) := rfl

/-- One word a condition of 30_encoding.md R127, each at the edge of its range, and a legal word beside it. -/
theorem witness_IllegalWordsExactly :
    WordIllegal 4 0x10007 ∧ WordIllegal 4 0x0 ∧ WordIllegal 4 0xD ∧ WordIllegal 4 0x105 ∧
    WordIllegal 4 0x1004 ∧ WordIllegal 4 0x401 ∧ WordIllegal 4 0x4005 ∧ ¬ WordIllegal 4 0x330C := by
  refine ⟨?_, ?_, ?_, ?_, ?_, ?_, ?_, ?_⟩ <;> unfold WordIllegal <;> decide

theorem witness_StepRunsDecodedCommand :
    (State.reset.withFetchWord 32 0x330C).host = .write 0x00C 0x330C :: [] ∧
    (State.reset.withFetchWord 32 0x330C).status.fault = false ∧
    decode 0x330C = .ok (.subbs 3 3) ∧ (Instr.subbs 3 3).wellFormed State.reset.params.nbs = true :=
  ⟨rfl, rfl, rfl, rfl⟩

theorem witness_IllegalWordFaults :
    (pending (.write 0x00C 0x4007) State.reset).host = .write 0x00C 0x4007 :: [] ∧
    (pending (.write 0x00C 0x4007) State.reset).status.fault = false ∧
    WordIllegal State.reset.params.nbs 0x4007 :=
  ⟨rfl, rfl, by unfold WordIllegal; decide⟩

theorem witness_FaultedBlockIgnoresCommands :
    (pending (.write 0x00C 0x3) faulted).host = .write 0x00C 0x3 :: [] ∧
    (pending (.write 0x00C 0x3) faulted).status.fault = true := ⟨rfl, rfl⟩

theorem witness_ResetPulseResets :
    (pending .resetPulse faulted).host = .resetPulse :: [] := rfl

/-- The reset state has the invariant. -/
theorem reset_inv : State.reset.Inv :=
  { paramsLegal := by decide, nullClean := by decide, absentNull := by decide, vlenFits := by decide,
    ilenFits := by decide, olenFits := by decide, bselLegal := by decide, ibufWf := by decide,
    ibufBelow := fun _ h => (nomatch h), statusLegal := by decide }

/-- A state with a present register, a faulted one: the invariant is not only that of reset. -/
theorem witness_StepKeepsInvariant :
    (pending (.write 0x00C 0x1) (source (present 8 [0x12, 0x34]) 0 0)).Inv ∧
    seen (·.host) (step (pending (.write 0x00C 0x1) (source (present 8 [0x12, 0x34]) 0 0))) = some [] :=
  ⟨{ paramsLegal := by decide, nullClean := by decide, absentNull := by decide, vlenFits := by decide,
     ilenFits := by decide, olenFits := by decide, bselLegal := by decide, ibufWf := by decide,
     ibufBelow := fun _ h => (nomatch h), statusLegal := by decide }, by decide⟩

/-- NBS and VMAX at both ends of their ranges. -/
theorem witness_ResetHasInvariant :
    Params.Legal { small with nbs := 1, vmax := 1 } ∧ Params.Legal { small with nbs := 16, vmax := 2 ^ 29 } := by
  decide

theorem witness_FaultIsSticky :
    (∃ t, step (pending (.write 0x00C 0x2) faulted) = .next t) ∧
    (∃ t, step (pending .resetPulse faulted) = .next t) ∧ faulted.status.fault = true :=
  ⟨⟨_, rfl⟩, ⟨_, rfl⟩, rfl⟩

theorem witness_MisalignedAccessRefused :
    (0x001 : Offset).toNat % 4 ≠ 0 ∧ (0xFFF : Offset).toNat % 4 ≠ 0 ∧
    (pending (.read 0x001) State.reset).host = .read 0x001 :: [] ∧
    (pending (.write 0xFFF 0) State.reset).host = .write 0xFFF 0 :: [] := ⟨by decide, by decide, rfl, rfl⟩

/-- A UPDV whose candidate is written to its last cell; a BDATA read of a written cell. -/
theorem witness_ReadyStepAnswersNext :
    NextAligned (pending (.write 0x00C 0x5) (feed [(0, 1)] 1 State.reset)) ∧
    IbufReady (pending (.write 0x00C 0x5) (feed [(0, 1)] 1 State.reset)) ∧
    NextAligned (pending (.read 0x058) { feed [(0, 1)] 1 State.reset with bsel := 16 }) ∧
    IbufReady (pending (.read 0x058) { feed [(0, 1)] 1 State.reset with bsel := 16 }) :=
  ⟨rfl, by unfold IbufReady; decide, rfl, by unfold IbufReady; decide⟩

theorem witness_StopsOnlyWhereSpecStops :
    step (pending (.write 0xFFE 0) State.reset) = .refused .misaligned ∧
    step (pending (.write 0x00C 0x1) (feed [(0, 1)] 2 State.reset)) = .fault .uninitIbuf ∧
    step (pending (.write 0x00C 0x5) (feed [] 1 (source (present 8 [0]) 0 0))) = .fault .uninitIbuf ∧
    step (pending (.read 0x058) { feed [(0, 1)] 1 State.reset with bsel := 16, baddr := 1 }) =
      .fault .uninitHostRead := ⟨rfl, rfl, rfl, rfl⟩

theorem witness_CommandsKeepInputs : ∃ t, exec .u2b (args 5 8) = .next t := ⟨_, rfl⟩

/-- One command of each kind of writer: RES, OBUF, a register. -/
theorem witness_OutputsWrittenOnlyByTheirCommands :
    seen (·.res) (exec (.touint 0) (source (present 8 [5]) 0 0)) = some 5 ∧
    seen (·.obuf) (exec .u2b (args 5 8)) = some [5] ∧
    seen (·.bs 3) (exec (.newbs 3) (args 5 8)) = some (present 8 [5]) := by decide

/-- The three outcomes, the extreme causes 1, 4, 9 and 14 among them. -/
theorem witness_OutcomeIsOneOfThree :
    State.reset.status.fault = false ∧
    seen outcomeWords (exec .u2b State.reset) = some (0x000, 0, 0) ∧
    seen outcomeWords (exec (.updv 1) State.reset) = some (0x101, 1, 0) ∧
    seen outcomeWords (exec (.getbit 0) (source (present 0 []) 0 0)) = some (0x104, 0, 0) ∧
    seen outcomeWords (exec (.touint 1) State.reset) = some (0x209, 1, 0) ∧
    seen outcomeWords (exec (.subbs 1 0) (source (present 0 []) 0 0)) = some (0x20E, 0, 0) := by decide

theorem witness_FaultsArePrecise :
    State.reset.status.fault = false ∧
    seen (·.status.fault) (exec (.maxbit 3) State.reset) = some true := by decide

theorem witness_InvalidArgumentKeepsRegisters :
    seen (·.status.err) (exec (.updv 0) State.reset) = some true ∧
    seen (·.status.err) (exec (.trunc 0) State.reset) = some true ∧
    seen (·.status.err) (exec (.getbit 0) (source (present 4 [7]) 4 0)) = some true := by decide

theorem witness_OnlyNullbsMakesNull :
    ((source (present 8 [5]) 0 0).bs 0).p = true ∧
    seen (fun t => (t.bs 0).p) (exec (.nullbs 0) (source (present 8 [5]) 0 0)) = some false := by decide

/-- Each of the six commands succeeding, the empty string among them. -/
theorem witness_SuccessEstablishesI1 :
    seen (·.status.cause) (exec (.newbs 0) (args 5 0)) = some .ok ∧
    seen (·.status.cause) (exec (.subbs 0 0) (source (present 8 [5]) 0 1)) = some .ok ∧
    seen (·.status.cause) (exec (.updv 0) (source (present 0 [5]) 0 0)) = some .ok ∧
    seen (·.status.cause) (exec (.trunc 0) (source (present 8 [5]) 0 0)) = some .ok ∧
    seen (·.status.cause) (exec (.fromuint 0) (source (present 0 []) 5 0)) = some .ok ∧
    seen (·.status.cause) (exec (.adduint 0) (source (present 1 [1]) 1 0)) = some .ok := by decide

/-- The empty candidate, a candidate of two cells, and one whose last cell is unwritten. -/
theorem witness_LoadbsOperation :
    CandidateIs State.reset [] ∧ CandidateIs (feed [(0, 1), (1, 2)] 2 State.reset) [1, 2] ∧
    CandidateUnwritten (feed [(0, 1)] 2 State.reset) :=
  ⟨by unfold CandidateIs; decide, by unfold CandidateIs; decide, 1, by decide⟩

/-- The largest length that fits VMAX = 4, and the next one. -/
theorem witness_NewbsOperation :
    (lenArg (built small (args 1 32)) + 7) / 8 ≤ small.vmax ∧
    small.vmax < (lenArg (built small (args 1 33)) + 7) / 8 := by decide

theorem witness_U2bOperation :
    (lenArg (built small (args 1 32)) + 7) / 8 ≤ small.vmax ∧ small.u2bMask = true ∧
    (lenArg (built unmasked (args 1 0)) + 7) / 8 ≤ unmasked.vmax ∧ unmasked.u2bMask = false ∧
    small.vmax < (lenArg (built small (args 1 33)) + 7) / 8 := by decide

/-- Both settings; with U2B_MASK = 0 a value that agrees, one that differs, and 0x100 on 8 bits, whose excess is
not kept on one byte, so that the two agree (assumption log 18). -/
theorem witness_U2bAgainstNewbs :
    seen (fun t => (t.obuf, t.status.cause)) (exec .u2b (args 0xFF 4)) = some ([0x0F], .ok) ∧
    seen (fun t => (t.obuf, t.status.cause)) (exec .u2b (built unmasked (args 0xFF 4))) = some ([0xFF], .ok) ∧
    seen (fun t => (t.obuf, t.status.cause)) (exec .u2b (built unmasked (args 0x0F 4))) = some ([0x0F], .ok) ∧
    seen (fun t => (t.obuf, t.status.cause)) (exec .u2b (built unmasked (args 0x100 8))) = some ([0x00], .ok) ∧
    seen (fun t => ((t.bs 1).val, t.status.cause)) (exec (.newbs 1) (args 0xFF 4)) = some ([0x0F], .ok) := by
  decide

/-- Null; one byte too few; the empty candidate that matches LEN 0 and the full one; the last cell unwritten. -/
theorem witness_UpdvOperation :
    (State.reset.bs 3).p = false ∧
    ((feed [(0, 1)] 1 (source (present 9 [1, 2]) 0 0)).bs 0).p = true ∧
    (feed [(0, 1)] 1 (source (present 9 [1, 2]) 0 0)).ilen.toNat ≠ (9 + 7) / 8 ∧
    (source (present 0 [5]) 0 0).ilen.toNat = (0 + 7) / 8 ∧ CandidateIs (source (present 0 [5]) 0 0) [] ∧
    (feed [(0, 1), (1, 2)] 2 (source (present 9 []) 0 0)).ilen.toNat = (9 + 7) / 8 ∧
    CandidateIs (feed [(0, 1), (1, 2)] 2 (source (present 9 []) 0 0)) [1, 2] ∧
    CandidateUnwritten (feed [(0, 1)] 2 (source (present 9 []) 0 0)) :=
  ⟨by decide, by decide, by decide, by decide, by unfold CandidateIs; decide, by decide,
   by unfold CandidateIs; decide, 1, by decide⟩

/-- Null; LEN 0 with a byte stored; one byte too few; one bit, and eight bits (nothing to clear). -/
theorem witness_TruncOperation :
    (State.reset.bs 3).p = false ∧
    (((source (present 0 [5]) 0 0).bs 0).p = true ∧ ((source (present 0 [5]) 0 0).bs 0).len = 0) ∧
    (((source (present 9 [5]) 0 0).bs 0).len ≠ 0 ∧ ((source (present 9 [5]) 0 0).bs 0).val.length ≠ (9 + 7) / 8) ∧
    (((source (present 1 [5]) 0 0).bs 0).val.length = (1 + 7) / 8 ∧
      ((source (present 1 [5]) 0 0).bs 0).val = [] ++ [5]) ∧
    (((source (present 16 [5, 6]) 0 0).bs 0).val.length = (16 + 7) / 8 ∧
      ((source (present 16 [5, 6]) 0 0).bs 0).val = [5] ++ [6]) := by decide

/-- Null; positions -1 and LEN; positions 0 and LEN - 1 stored; LEN - 1 not stored. -/
theorem witness_GetbitOperation :
    (State.reset.bs 3).p = false ∧
    (source (present 16 [0x80, 0x01]) 0xFFFFFFFFFFFFFFFF 0).arg0.toInt < 0 ∧
    (16 : Int) ≤ (source (present 16 [0x80, 0x01]) 16 0).arg0.toInt ∧
    (source (present 16 [0x80, 0x01]) 0 0).arg0.toInt = ((0 : Nat) : Int) ∧
    ([0x80, 0x01] : List Byte)[2 - 1 - 0 / 8]? = some 0x01 ∧
    (source (present 16 [0x80, 0x01]) 15 0).arg0.toInt = ((15 : Nat) : Int) ∧
    ([0x80, 0x01] : List Byte)[2 - 1 - 15 / 8]? = some 0x80 ∧
    ((source (present 16 [0x01]) 15 0).bs 0).val.length ≤ 15 / 8 := by decide

/-- Null; LEN 9 with one byte; LEN 0; a set bit at LEN - 1; no set bit below LEN. -/
theorem witness_MaxbitOperation :
    (State.reset.bs 3).p = false ∧
    (1 ≤ ((source (present 9 [1]) 0 0).bs 0).len.toNat ∧
      ((source (present 9 [1]) 0 0).bs 0).val.length < (9 + 7) / 8) ∧
    (0 + 7) / 8 ≤ ((source (present 0 []) 0 0).bs 0).val.length ∧
    readbit ((source (present 9 [1, 0]) 0 0).bs 0) 8 = some true ∧
    (9 + 7) / 8 ≤ ((source (present 9 [0xFE, 0]) 0 0).bs 0).val.length := by decide

/-- Null; 2^64 - 1; 2^64. -/
theorem witness_TouintOperation :
    (State.reset.bs 3).p = false ∧
    beval ((source (present 64 [0xFF, 0xFF, 0xFF, 0xFF, 0xFF, 0xFF, 0xFF, 0xFF]) 0 0).bs 0).val = 2 ^ 64 - 1 ∧
    beval ((source (present 72 [1, 0, 0, 0, 0, 0, 0, 0, 0]) 0 0).bs 0).val = 2 ^ 64 := by decide

theorem witness_FromuintOperation :
    (State.reset.bs 3).p = false ∧
    ((source (present 9 [0xAB]) 1 0).bs 0).val.length ≠ (9 + 7) / 8 ∧
    ((source (present 8 [0xAB]) 1 0).bs 0).val.length = (8 + 7) / 8 ∧
    ((source (present 0 []) 1 0).bs 0).val.length = (0 + 7) / 8 := by decide

/-- Null; one byte too few; a fold of 2^64; a sum of 2^64 on 72 bits, and one of 2^64 - 1; LEN 64. -/
theorem witness_AdduintOperation :
    (State.reset.bs 3).p = false ∧
    ((source (present 9 [0xAB]) 1 0).bs 0).val.length ≠ (9 + 7) / 8 ∧
    beval ((source (present 72 [1, 0, 0, 0, 0, 0, 0, 0, 0]) 0 0).bs 0).val = 2 ^ 64 ∧
    beval ((source (present 72 [0, 0, 0, 0, 0, 0, 0, 0, 1]) 0xFFFFFFFFFFFFFFFF 0).bs 0).val +
      (source (present 72 [0, 0, 0, 0, 0, 0, 0, 0, 1]) 0xFFFFFFFFFFFFFFFF 0).arg0.toNat = 2 ^ 64 ∧
    beval ((source (present 72 [0, 0, 0, 0, 0, 0, 0, 0, 1]) 0xFFFFFFFFFFFFFFFE 0).bs 0).val +
      (source (present 72 [0, 0, 0, 0, 0, 0, 0, 0, 1]) 0xFFFFFFFFFFFFFFFE 0).arg0.toNat < 2 ^ 64 ∧
    ((source (present 64 [0, 0, 0, 0, 0, 0, 0, 1]) 0 0).bs 0).len.toNat ≤ 64 := by decide

/-- Null; length 0; 33 bits over VMAX = 4; the first bit missing, and one after a stored one. -/
theorem witness_SubbsChecks :
    (State.reset.bs 3).p = false ∧
    lenArg (source (present 8 [5]) 0 0) = 0 ∧
    small.vmax < (lenArg (built small (source (present 8 [5]) 0 33)) + 7) / 8 ∧
    (SliceBitMissing (present 16 [1]) (startArg (source (present 16 [1]) 8 1)) 0) ∧
    (SliceBitMissing (present 16 [1]) (startArg (source (present 16 [1]) 7 2)) 1 ∧
      ∀ j, j < 1 → ¬ SliceBitMissing (present 16 [1]) (startArg (source (present 16 [1]) 7 2)) j) := by
  unfold SliceBitMissing; decide

/-- A slice of all stored bits and one that runs past LEN. -/
theorem witness_SubbsResult :
    ((source (present 16 [0xB5, 0x3C]) 0 16).bs 0).p = true ∧ lenArg (source (present 16 [0xB5, 0x3C]) 0 16) ≠ 0 ∧
    (lenArg (source (present 16 [0xB5, 0x3C]) 0 16) + 7) / 8 ≤ Params.defaults.vmax ∧
    (∀ k, k < 16 → ¬ SliceBitMissing (present 16 [0xB5, 0x3C]) 0 k) ∧
    (∀ k, k < 4 → ¬ SliceBitMissing (present 16 [0xB5, 0x3C]) 14 k) := by
  unfold SliceBitMissing; decide

theorem witness_ReadbitIsIntegerBit :
    15 / 8 < (present 16 [0x80, 0x01]).val.length ∧ (present 16 [0x80, 0x01]).val.length ≤ 16 / 8 := by decide

/-- Lengths 0, 63 and 64. -/
theorem witness_NewbsTouintRoundTrip :
    seen (·.status.cause) (exec (.newbs 0) (args 0xFFFFFFFFFFFFFFFF 0)) = some .ok ∧
    seen (·.status.cause) (exec (.newbs 0) (args 0x7FFFFFFFFFFFFFFF 63)) = some .ok ∧
    (args 0x7FFFFFFFFFFFFFFF 63).arg0.toNat < 2 ^ lenArg (args 0x7FFFFFFFFFFFFFFF 63) ∧
    seen (·.status.cause) (exec (.newbs 0) (args 0xFFFFFFFFFFFFFFFF 64)) = some .ok ∧
    64 ≤ lenArg (args 0xFFFFFFFFFFFFFFFF 64) := by decide

theorem witness_TruncIdempotent :
    seen (·.status.cause) (exec (.trunc 0) (source (present 9 [0xFF, 0xFF]) 0 0)) = some .ok := by decide

theorem witness_TruncClearsLowEnd :
    seen (fun t => (t.status.cause, beval (t.bs 0).val))
      (exec (.trunc 0) (source (present 10 [0x03, 0xFF]) 0 0)) = some (.ok, 960) := by decide

/-- A value that is 0 below LEN, and the top bit alone. -/
theorem witness_MaxbitIsBitLength :
    ((source (present 4 [0xF0]) 0 0).bs 0).p = true ∧ ((source (present 4 [0xF0]) 0 0).bs 0).I1 ∧
    beval ((source (present 4 [0xF0]) 0 0).bs 0).val % 2 ^ 4 = 0 ∧
    ((source (present 16 [0x80, 0x00]) 0 0).bs 0).I1 ∧
    beval ((source (present 16 [0x80, 0x00]) 0 0).bs 0).val % 2 ^ 16 ≠ 0 := by decide

/-- LEN 64, the last length of the rule, with a sum of 2^64. -/
theorem witness_AdduintReadingsAgree :
    seen (·.status.cause)
      (exec (.adduint 0) (source (present 64 [0xFF, 0xFF, 0xFF, 0xFF, 0xFF, 0xFF, 0xFF, 0xFF]) 1 0)) = some .ok ∧
    ((source (present 64 [0xFF, 0xFF, 0xFF, 0xFF, 0xFF, 0xFF, 0xFF, 0xFF]) 1 0).bs 0).len.toNat ≤ 64 := by decide

/-- Length 9 under BYTE_MSB_BIT_LSB: the first bit read goes to position 8, the others to 0 to 7. -/
theorem witness_PlaceIsBijection :
    (List.range 9).map (fun k => place .byteMsbBitLsb k 9) = [8, 0, 1, 2, 3, 4, 5, 6, 7] := by decide

/-- The first and the last bit read, under each order: a first byte of one bit (length 9) and a full one (length 16). -/
theorem witness_PlaceFollowsByteOrder :
    (place .reverse 0 9 = 8 ∧ place .reverse 8 9 = 0 ∧ place .reverse 15 16 = 0) ∧
    (place .byteMsbBitLsb 0 9 = 8 ∧ place .byteMsbBitLsb 8 9 = 7 ∧ place .byteMsbBitLsb 7 16 = 15 ∧
      place .byteMsbBitLsb 8 16 = 0) ∧
    place .straight 8 9 = 8 := by decide

theorem witness_SubbsStraightIsDivMod :
    (ordered .straight).subOrder = .straight ∧
    seen (fun t => (t.status.cause, beval (t.bs 1).val))
      (exec (.subbs 1 0) (built (ordered .straight) (source (present 16 [0xB5, 0x3C]) 4 12))) =
      some (.ok, 0xB53) := by decide

theorem witness_SubbsReverseTwice :
    startArg (source (present 16 [0xB5, 0x3C]) 0 9) = 0 ∧
    (∃ t u, exec (.subbs 1 0) (source (present 16 [0xB5, 0x3C]) 0 9) = .next t ∧ t.status.cause = .ok ∧
      exec (.subbs 2 1) t = .next u ∧ u.status.cause = .ok ∧ beval (u.bs 2).val = 0x13C) :=
  ⟨by decide, _, _, rfl, rfl, rfl, rfl, rfl⟩

/-- The last aligned offset; BADDR. -/
theorem witness_SideEffectsOnlyWhereNamed :
    (0xFFC : Offset).toNat % 4 = 0 ∧ (0xFFC : Offset) ≠ 0x058 ∧ (0xFFC : Offset) ≠ 0x00C ∧
    (0x054 : Offset).toNat % 4 = 0 ∧
    (pending (.read 0xFFC) State.reset).host = .read 0xFFC :: [] ∧
    (pending (.write 0x054 7) State.reset).host = .write 0x054 7 :: [] := by decide

/-- The first and the last offset of the list, and STATUS of a faulted block: 0x208, ILLEGAL (V6 row 1). -/
theorem witness_WindowReads :
    (pending (.read 0x000) State.reset).host = .read 0x000 :: [] ∧
    (pending (.read 0x054) State.reset).host = .read 0x054 :: [] ∧
    (0x208 : Word32).toNat = causeNumber faulted.status.cause +
      (if faulted.status.err then 0x100 else 0) + (if faulted.status.fault then 0x200 else 0) := by decide

theorem witness_CapsReportsParameters :
    State.reset.params.Legal ∧ (pending (.read 0x004) State.reset).host = .read 0x004 :: [] := by decide

/-- The last register of the block. -/
theorem witness_HeaderReads :
    (3 : RegIdx).toNat < State.reset.params.nbs ∧
    (pending (.read 0x138) State.reset).host =
      .read (BitVec.ofNat 12 (0x108 + 0x10 * (3 : RegIdx).toNat)) :: [] := by decide

/-- One offset a clause, each at the edge of its range. -/
theorem witness_ReservedOffsets :
    OffsetReserved 4 0x01C ∧ OffsetReserved 4 0x03C ∧ OffsetReserved 4 0x048 ∧ OffsetReserved 4 0x05C ∧
    OffsetReserved 4 0x10C ∧ OffsetReserved 4 0x140 ∧ OffsetReserved 4 0xFFC ∧ ¬ OffsetReserved 4 0x138 := by
  refine ⟨?_, ?_, ?_, ?_, ?_, ?_, ?_, ?_⟩ <;> unfold OffsetReserved <;> decide

/-- Offsets at the edges of the read-only ranges. -/
theorem witness_ReadOnlyRegisters :
    (0x008 : Offset).toNat ≤ 0x008 ∧ (0x018 : Offset).toNat ≤ 0x018 ∧ (0x034 : Offset).toNat ≤ 0x034 ∧
    (0x1FC : Offset).toNat < 0x200 ∧ (0x1FC : Offset).toNat % 4 = 0 ∧
    (pending (.write 0x1FC 1) State.reset).host = .write 0x1FC 1 :: [] ∧
    (pending (.read 0x00C) State.reset).host = .read 0x00C :: [] := by decide

theorem witness_ArgumentHalves :
    (pending (.write 0x020 1) State.reset).host = .write 0x020 1 :: [] ∧
    (pending (.write 0x024 1) State.reset).host = .write 0x024 1 :: [] ∧
    (pending (.write 0x028 1) State.reset).host = .write 0x028 1 :: [] ∧
    (pending (.write 0x02C 1) State.reset).host = .write 0x02C 1 :: [] := by decide

/-- VMAX and VMAX + 1. -/
theorem witness_IlenWriteAnyReadLegal :
    (pending (.write 0x040 0x20000000) State.reset).host = .write 0x040 0x20000000 :: [] ∧
    (0x20000000 : Word32).toNat ≤ State.reset.params.vmax ∧
    State.reset.params.vmax < (0x20000001 : Word32).toNat := by decide

/-- 3, 16 and 17 are legal, 4 and 18 are not. -/
theorem witness_BselWriteAnyReadLegal :
    State.reset.params.Legal ∧ (pending (.write 0x050 17) State.reset).host = .write 0x050 17 :: [] ∧
    (3 : Word32).toNat < State.reset.params.nbs ∧ (16 : Word32).toNat = 16 ∧ (17 : Word32).toNat = 17 ∧
    ¬ ((4 : Word32).toNat < State.reset.params.nbs ∨ (4 : Word32).toNat = 16 ∨ (4 : Word32).toNat = 17) ∧
    ¬ ((18 : Word32).toNat < State.reset.params.nbs ∨ (18 : Word32).toNat = 16 ∨ (18 : Word32).toNat = 17) := by
  decide

/-- The last register; OBUF; IBUF at VMAX, at a written cell below it, at an unwritten one. -/
theorem witness_ByteWindowRead :
    State.reset.params.Legal ∧ (pending (.read 0x058) State.reset).host = .read 0x058 :: [] ∧
    (3 : BitVec 5).toNat = (3 : RegIdx).toNat ∧ (3 : RegIdx).toNat < State.reset.params.nbs ∧
    (17 : BitVec 5).toNat = 17 ∧ (16 : BitVec 5).toNat = 16 ∧
    State.reset.params.vmax ≤ (0x20000000 : Word32).toNat ∧
    (0x1FFFFFFF : Word32).toNat < State.reset.params.vmax ∧
    (feed [(0x1FFFFFFF, 9)] 0 State.reset).ibuf.read 0x1FFFFFFF = some 9 ∧
    State.reset.ibuf.read 0x1FFFFFFF = none := by decide

/-- IBUF's last cell; one past it. -/
theorem witness_ByteWindowWrite :
    (pending (.write 0x058 0x1AB) State.reset).host = .write 0x058 0x1AB :: [] ∧
    ((16 : BitVec 5).toNat = 16 ∧ (0x1FFFFFFF : Word32).toNat < State.reset.params.vmax) ∧
    ¬ ((16 : BitVec 5).toNat = 16 ∧ (0x20000000 : Word32).toNat < State.reset.params.vmax) := by decide

end Sys2Proof.Tests
end

/-! # What each command hands on

`exec_cases` says which registers a command may write; the lemmas here also say with what value and after
which checks, so that the rules about sizes and values need not walk through the commands again. -/

section
namespace Sys2Proof.Machine

/-- The state each command hands to `succeed`, with the checks it has passed and the value it writes
(40_construct.md to 44_slice.md). -/
inductive SuccessState (s : State) : Instr → State → Prop where
  | loadbs (rd : RegIdx) (xs : List Byte) (hx : CandidateIs s xs) :
      SuccessState s (.loadbs rd) (s.setBs rd { p := true, len := s.argLen, val := xs })
  | nullbs (rd : RegIdx) : SuccessState s (.nullbs rd) (s.setBs rd BitString.null)
  | newbs (rd : RegIdx) (hn : nbytes s.argLen.toNat ≤ s.params.vmax) :
      SuccessState s (.newbs rd) (s.setBs rd
        { p := true, len := s.argLen,
          val := bepack (mask s.argValue s.argLen.toNat) (nbytes s.argLen.toNat) })
  | u2b (hn : nbytes s.argLen.toNat ≤ s.params.vmax) :
      SuccessState s .u2b (s.setObuf (bepack (u2bValue s) (nbytes s.argLen.toNat)))
  | updv (rs : RegIdx) (xs : List Byte) (hp : (s.bs rs).p = true)
      (hl : s.ilen.toNat = nbytes (s.bs rs).len.toNat) (hx : CandidateIs s xs) :
      SuccessState s (.updv rs) ((s.setVal rs xs).setObuf xs)
  | trunc (rs : RegIdx) (hp : (s.bs rs).p = true) (h0 : (s.bs rs).len ≠ 0) (hl : (s.bs rs).I1) :
      SuccessState s (.trunc rs) ((s.setVal rs (truncBytes (s.bs rs).val (s.bs rs).len.toNat)).setObuf
        (truncBytes (s.bs rs).val (s.bs rs).len.toNat))
  | getbit (rs : RegIdx) (x : Bool) (hp : (s.bs rs).p = true)
      (hr : ¬ (s.argPos < 0 ∨ s.argPos ≥ ((s.bs rs).len.toNat : Int)))
      (hx : readbit (s.bs rs) s.argPos.toNat = some x) :
      SuccessState s (.getbit rs) (s.setRes (BitVec.ofNat 64 x.toNat))
  | maxbit (rs : RegIdx) (r : Option Nat) (hp : (s.bs rs).p = true)
      (hr : scanDown (s.bs rs) (s.bs rs).len.toNat = .ok r) :
      SuccessState s (.maxbit rs) (s.setRes (maxbitResult r))
  | touint (rs : RegIdx) (hp : (s.bs rs).p = true) (hw : beval (s.bs rs).val < 2 ^ 64) :
      SuccessState s (.touint rs) (s.setRes (BitVec.ofNat 64 (beval (s.bs rs).val)))
  | fromuint (rs : RegIdx) (hp : (s.bs rs).p = true) (hl : (s.bs rs).I1) :
      SuccessState s (.fromuint rs) (s.setVal rs
        (bepack (mask s.argValue (s.bs rs).len.toNat) (nbytes (s.bs rs).len.toNat)))
  | adduint (rs : RegIdx) (hp : (s.bs rs).p = true) (hl : (s.bs rs).I1)
      (ht : beval (s.bs rs).val < 2 ^ 64)
      (hw : ¬ ((s.bs rs).len.toNat > 64 ∧ beval (s.bs rs).val + s.argValue ≥ 2 ^ 64)) :
      SuccessState s (.adduint rs) (s.setVal rs
        (bepack (mask (beval (s.bs rs).val + s.argValue) (s.bs rs).len.toNat)
          (nbytes (s.bs rs).len.toNat)))
  | subbs (rd rs : RegIdx) (r : Nat) (hp : (s.bs rs).p = true) (h0 : s.argLen.toNat ≠ 0)
      (hn : nbytes s.argLen.toNat ≤ s.params.vmax)
      (hr : sliceSum s.params.subOrder (s.bs rs) s.argStart s.argLen.toNat s.argLen.toNat = .ok r) :
      SuccessState s (.subbs rd rs)
        (s.setBs rd { p := true, len := s.argLen, val := bepack r (nbytes s.argLen.toNat) })

/-- The state each command hands to `invalidArgument`, with the bytes OBUF holds (41_update.md R171, R177;
42_bitaccess.md R191). -/
inductive RejectState (s : State) : Instr → State → Prop where
  | emptied (i : Instr) (rs : RegIdx) (h : i = .updv rs ∨ i = .trunc rs) :
      RejectState s i (s.setObuf [])
  | copied (rs : RegIdx) : RejectState s (.updv rs) (s.setObuf (s.bs rs).val)
  | zeroResult (rs : RegIdx) : RejectState s (.getbit rs) (s.setRes 0)

/-- The four ways a command ends (60_exceptions.md R262 to R264, R268). -/
inductive Ends (s : State) (i : Instr) : Result → Prop where
  | stops (h : s.candidate = none) : Ends s i (.fault .uninitIbuf)
  | raises (c : Cause) (i0 i1 : Nat) (h : c.isFault = true) : Ends s i (raiseFault c i0 i1 s)
  | rejects (c : Cause) (i0 i1 : Nat) (u : State) (h : c.isInvalid = true) (hu : RejectState s i u) :
      Ends s i (invalidArgument c i0 i1 u)
  | succeeds (u : State) (hu : SuccessState s i u) : Ends s i (succeed u)

theorem execLoadbs_ends (rd : RegIdx) (s : State) : Ends s (.loadbs rd) (execLoadbs rd s) := by
  simp only [execLoadbs]
  split
  · exact .stops ‹_›
  · exact .succeeds _ (.loadbs rd _ ((candidate_eq_some_iff s _).1 ‹_›))

theorem execNewbs_ends (rd : RegIdx) (s : State) : Ends s (.newbs rd) (execNewbs rd s) := by
  simp only [execNewbs]
  split
  · exact .raises _ _ _ rfl
  · exact .succeeds _ (.newbs rd (Nat.not_lt.1 ‹_›))

theorem execU2b_ends (s : State) : Ends s .u2b (execU2b s) := by
  simp only [execU2b]
  split
  · exact .raises _ _ _ rfl
  · exact .succeeds _ (.u2b (Nat.not_lt.1 ‹_›))

theorem execUpdv_ends (rs : RegIdx) (s : State) : Ends s (.updv rs) (execUpdv rs s) := by
  simp only [execUpdv]
  split
  · exact .rejects _ _ _ _ rfl (.emptied _ rs (.inl rfl))
  · rename_i hp
    split
    · exact .rejects _ _ _ _ rfl (.copied rs)
    · rename_i hl
      split
      · exact .stops ‹_›
      · exact .succeeds _ (.updv rs _ (Bool.eq_true_of_not_eq_false hp) (not_not.1 hl)
          ((candidate_eq_some_iff s _).1 ‹_›))

theorem execTrunc_ends (rs : RegIdx) (s : State) : Ends s (.trunc rs) (execTrunc rs s) := by
  simp only [execTrunc]
  split
  · exact .rejects _ _ _ _ rfl (.emptied _ rs (.inr rfl))
  · rename_i hp
    split
    · exact .rejects _ _ _ _ rfl (.emptied _ rs (.inr rfl))
    · rename_i h0
      split
      · exact .rejects _ _ _ _ rfl (.emptied _ rs (.inr rfl))
      · exact .succeeds _ (.trunc rs (Bool.eq_true_of_not_eq_false hp) h0 (not_not.1 ‹_›))

theorem execGetbit_ends (rs : RegIdx) (s : State) : Ends s (.getbit rs) (execGetbit rs s) := by
  simp only [execGetbit]
  split
  · exact .raises _ _ _ rfl
  · rename_i hp
    split
    · exact .rejects _ _ _ _ rfl (.zeroResult rs)
    · split
      · exact .raises _ _ _ rfl
      · exact .succeeds _ (.getbit rs _ (Bool.eq_true_of_not_eq_false hp) ‹_› ‹_›)

theorem execMaxbit_ends (rs : RegIdx) (s : State) : Ends s (.maxbit rs) (execMaxbit rs s) := by
  simp only [execMaxbit]
  split
  · exact .raises _ _ _ rfl
  · rename_i hp
    split
    · exact .raises _ _ _ rfl
    · exact .succeeds _ (.maxbit rs _ (Bool.eq_true_of_not_eq_false hp) ‹_›)

theorem execTouint_ends (rs : RegIdx) (s : State) : Ends s (.touint rs) (execTouint rs s) := by
  simp only [execTouint]
  split
  · exact .raises _ _ _ rfl
  · rename_i hp
    split
    · exact .raises _ _ _ rfl
    · exact .succeeds _ (.touint rs (Bool.eq_true_of_not_eq_false hp) (Nat.not_le.1 ‹_›))

theorem execFromuint_ends (rs : RegIdx) (s : State) : Ends s (.fromuint rs) (execFromuint rs s) := by
  simp only [execFromuint]
  split
  · exact .raises _ _ _ rfl
  · rename_i hp
    split
    · exact .raises _ _ _ rfl
    · exact .succeeds _ (.fromuint rs (Bool.eq_true_of_not_eq_false hp) (not_not.1 ‹_›))

theorem execAdduint_ends (rs : RegIdx) (s : State) : Ends s (.adduint rs) (execAdduint rs s) := by
  simp only [execAdduint]
  split
  · exact .raises _ _ _ rfl
  · rename_i hp
    split
    · exact .raises _ _ _ rfl
    · rename_i hl
      split
      · exact .raises _ _ _ rfl
      · rename_i ht
        split
        · exact .raises _ _ _ rfl
        · exact .succeeds _ (.adduint rs (Bool.eq_true_of_not_eq_false hp) (not_not.1 hl) (Nat.not_le.1 ht) ‹_›)

theorem execSubbs_ends (rd rs : RegIdx) (s : State) : Ends s (.subbs rd rs) (execSubbs rd rs s) := by
  simp only [execSubbs]
  split
  · exact .raises _ _ _ rfl
  · rename_i hp
    split
    · exact .raises _ _ _ rfl
    · rename_i h0
      split
      · exact .raises _ _ _ rfl
      · rename_i hn
        split
        · exact .raises _ _ _ rfl
        · exact .succeeds _ (.subbs rd rs _ (Bool.eq_true_of_not_eq_false hp) h0 (Nat.not_lt.1 hn) ‹_›)

/-- Every command ends in one of the four ways. -/
theorem exec_ends (i : Instr) (s : State) : Ends s i (exec i s) := by
  cases i with
  | loadbs rd => exact execLoadbs_ends rd s
  | nullbs rd => exact .succeeds _ (.nullbs rd)
  | newbs rd => exact execNewbs_ends rd s
  | u2b => exact execU2b_ends s
  | updv rs => exact execUpdv_ends rs s
  | trunc rs => exact execTrunc_ends rs s
  | getbit rs => exact execGetbit_ends rs s
  | maxbit rs => exact execMaxbit_ends rs s
  | touint rs => exact execTouint_ends rs s
  | fromuint rs => exact execFromuint_ends rs s
  | adduint rs => exact execAdduint_ends rs s
  | subbs rd rs => exact execSubbs_ends rd rs s

/-- The inversion lemma of `exec`: a next state is that of a fault, a rejected argument or a success. -/
theorem exec_next {i : Instr} {s t : State} (h : exec i s = .next t) :
    (∃ c i0 i1, c.isFault = true ∧ raiseFault c i0 i1 s = .next t) ∨
    (∃ c i0 i1 u, c.isInvalid = true ∧ RejectState s i u ∧ invalidArgument c i0 i1 u = .next t) ∨
    (∃ u, SuccessState s i u ∧ succeed u = .next t) := by
  have he := exec_ends i s
  generalize exec i s = r at he h
  cases he with
  | stops hc => cases h
  | raises c i0 i1 hc => exact .inl ⟨c, i0, i1, hc, h⟩
  | rejects c i0 i1 u hc hu => exact .inr (.inl ⟨c, i0, i1, u, hc, hu, h⟩)
  | succeeds u hu => exact .inr (.inr ⟨u, hu, h⟩)

/-- A command that answers with cause OK has succeeded. -/
theorem exec_ok {i : Instr} {s t : State} (h : exec i s = .next t) (hc : t.status.cause = .ok) :
    ∃ u, SuccessState s i u ∧ succeed u = .next t := by
  rcases exec_next h with ⟨c, i0, i1, hf, ht⟩ | ⟨c, i0, i1, u, hf, -, ht⟩ | hu
  · cases ht
    change c = .ok at hc
    subst hc
    cases hf
  · cases ht
    change c = .ok at hc
    subst hc
    cases hf
  · exact hu

/-- A command's next state is one it hands to its outcome, but for STATUS, INFO0 and INFO1. -/
theorem exec_writes {i : Instr} {s t : State} (h : exec i s = .next t) :
    ∃ u, (u = s ∨ RejectWrites s i u ∨ CommandWrites s i u) ∧
      t = { u with status := t.status, info0 := t.info0, info1 := t.info1 } := by
  rcases exec_cases i s with ⟨he, -⟩ | ⟨c, i0, i1, -, -, he⟩ | ⟨c, i0, i1, u, -, hu, he⟩ | ⟨u, hu, he⟩
  · cases he.symm.trans h
  · cases he.symm.trans h
    exact ⟨s, .inl rfl, rfl⟩
  · cases he.symm.trans h
    exact ⟨u, .inr (.inl hu), rfl⟩
  · cases he.symm.trans h
    exact ⟨u, .inr (.inr hu), rfl⟩

end Sys2Proof.Machine
end

/-! # The invariant of the state -/

section
namespace Sys2Proof.Machine

/-- The invariant looks at the parameters, the registers, ILEN, OBUF, BSEL, IBUF and STATUS only. -/
theorem State.Inv.congr {s t : State} (h : s.Inv) (hp : t.params = s.params) (hb : t.bank = s.bank)
    (hl : t.ilen = s.ilen) (ho : t.obuf = s.obuf) (hs : t.bsel = s.bsel) (hm : t.ibuf = s.ibuf)
    (hst : t.status.Legal) : t.Inv where
  paramsLegal := hp ▸ h.paramsLegal
  nullClean r := by rw [State.bs_congr hb]; exact h.nullClean r
  absentNull r := by rw [State.bs_congr hb, hp]; exact h.absentNull r
  vlenFits r := by rw [State.bs_congr hb, hp]; exact h.vlenFits r
  ilenFits := by rw [hl, hp]; exact h.ilenFits
  olenFits := by rw [State.olen, ho, hp]; exact h.olenFits
  bselLegal := by rw [hs, hp]; exact h.bselLegal
  ibufWf := by rw [hm]; exact h.ibufWf
  ibufBelow := by rw [hm, hp]; exact h.ibufBelow
  statusLegal := hst

/-- Taking an event off the host's list and answering it keeps the invariant. -/
theorem State.Inv.served {s : State} (h : s.Inv) (rest : List HostEvent) (reply : Option Reply) :
    State.Inv { s with host := rest, reply := reply } :=
  h.congr rfl rfl rfl rfl rfl rfl h.statusLegal

/-- An outcome on a state with the invariant keeps it, if it leaves a legal STATUS. -/
theorem State.Inv.outcome {u : State} (h : u.Inv) (st : Status) (i0 i1 : Word32) (hst : st.Legal) :
    State.Inv { u with status := st, info0 := i0, info1 := i1 } :=
  h.congr rfl rfl rfl rfl rfl rfl hst

/-- Reset establishes the invariant (10_state.md R50). -/
theorem State.inv_resetFor (p : Params) (hp : p.Legal) : (State.resetFor p).Inv where
  paramsLegal := hp
  nullClean r _ := State.bs_resetFor p r
  absentNull r _ := State.bs_resetFor p r
  vlenFits r := by rw [State.bs_resetFor]; exact Nat.zero_le _
  ilenFits := Nat.zero_le _
  olenFits := Nat.zero_le _
  bselLegal := by
    have hn : 0 < p.nbs := hp.1
    simp [State.resetFor, legalBsel, hn]
  ibufWf := rfl
  ibufBelow _ h := nomatch h
  statusLegal := .inl ⟨rfl, rfl, rfl⟩

/-! ## Commands -/

/-- A write of a register that exists keeps the invariant, if the value fits VMAX and is the null BitString
when it is null. -/
theorem State.Inv.setBs {s : State} (h : s.Inv) {r : RegIdx} (hr : r.toNat < s.params.nbs) {b : BitString}
    (hn : b.p = false → b = BitString.null) (hv : b.vlen ≤ s.params.vmax) : (s.setBs r b).Inv where
  paramsLegal := h.paramsLegal
  nullClean q := by
    by_cases hq : q = r
    · rw [hq, State.bs_setBs_same]; exact hn
    · rw [State.bs_setBs_ne s r q b hq]; exact h.nullClean q
  absentNull q hnq := by
    have hq : q ≠ r := fun e => Nat.not_le.2 hr (e ▸ hnq)
    rw [State.bs_setBs_ne s r q b hq]
    exact h.absentNull q hnq
  vlenFits q := by
    by_cases hq : q = r
    · rw [hq, State.bs_setBs_same]; exact hv
    · rw [State.bs_setBs_ne s r q b hq]; exact h.vlenFits q
  ilenFits := h.ilenFits
  olenFits := h.olenFits
  bselLegal := h.bselLegal
  ibufWf := h.ibufWf
  ibufBelow := h.ibufBelow
  statusLegal := h.statusLegal

/-- New bytes of a present register that exists keep the invariant, if they fit VMAX. -/
theorem State.Inv.setVal {s : State} (h : s.Inv) {r : RegIdx} (hr : r.toNat < s.params.nbs)
    (hp : (s.bs r).p = true) {xs : List Byte} (hx : xs.length ≤ s.params.vmax) : (s.setVal r xs).Inv :=
  h.setBs hr (fun hn => absurd hn (by simp [hp])) hx

theorem State.Inv.setObuf {s : State} (h : s.Inv) {xs : List Byte} (hx : xs.length ≤ s.params.vmax) :
    (s.setObuf xs).Inv :=
  { h with olenFits := hx }

theorem State.Inv.setRes {s : State} (h : s.Inv) (v : Word64) : (s.setRes v).Inv :=
  h.congr rfl rfl rfl rfl rfl rfl h.statusLegal

/-- The register fields of a well-formed command exist (30_encoding.md R126). -/
theorem Instr.lt_of_wellFormed {nbs : Nat} {i : Instr} (h : i.wellFormed nbs = true) :
    (∀ r, i.rd? = some r → r.toNat < nbs) ∧ (∀ r, i.rs? = some r → r.toNat < nbs) := by
  simp only [Instr.wellFormed, Bool.and_eq_true] at h
  constructor
  · intro r hr
    simpa [hr, RegIdx.exists?] using h.1
  · intro r hr
    simpa [hr, RegIdx.exists?] using h.2

/-- What a rejecting command writes to OBUF or RES keeps the invariant. -/
theorem RejectState.inv {s u : State} {i : Instr} (h : RejectState s i u) (hs : s.Inv) : u.Inv := by
  cases h with
  | emptied i rs h => exact hs.setObuf (Nat.zero_le _)
  | copied rs => exact hs.setObuf (hs.vlenFits rs)
  | zeroResult rs => exact hs.setRes 0

/-- What a successful command writes keeps the invariant: each length is checked against VMAX, copied from
ILEN, or that of the register before. -/
theorem SuccessState.inv {s u : State} {i : Instr} (h : SuccessState s i u) (hs : s.Inv)
    (hw : i.wellFormed s.params.nbs = true) : u.Inv := by
  obtain ⟨hrd, hrs⟩ := Instr.lt_of_wellFormed hw
  cases h with
  | loadbs rd xs hx => exact hs.setBs (hrd rd rfl) nofun (hx.1.trans_le hs.ilenFits)
  | nullbs rd => exact hs.setBs (hrd rd rfl) (fun _ => rfl) (Nat.zero_le _)
  | newbs rd hn => exact hs.setBs (hrd rd rfl) nofun ((length_bepack _ _).trans_le hn)
  | u2b hn => exact hs.setObuf ((length_bepack _ _).trans_le hn)
  | updv rs xs hp hl hx =>
    have hv : xs.length ≤ s.params.vmax := hx.1.trans_le hs.ilenFits
    exact (hs.setVal (hrs rs rfl) hp hv).setObuf hv
  | trunc rs hp h0 hl =>
    have hv := (length_truncBytes (s.bs rs).val (s.bs rs).len.toNat).trans_le (hs.vlenFits rs)
    exact (hs.setVal (hrs rs rfl) hp hv).setObuf hv
  | getbit rs x hp hr hx => exact hs.setRes _
  | maxbit rs r hp hr => exact hs.setRes _
  | touint rs hp hw => exact hs.setRes _
  | fromuint rs hp hl =>
    exact hs.setVal (hrs rs rfl) hp ((length_bepack _ _).trans_le (hl ▸ hs.vlenFits rs))
  | adduint rs hp hl ht hw =>
    exact hs.setVal (hrs rs rfl) hp ((length_bepack _ _).trans_le (hl ▸ hs.vlenFits rs))
  | subbs rd rs r hp h0 hn hr =>
    exact hs.setBs (hrd rd rfl) nofun ((length_bepack _ _).trans_le hn)

/-! STATUS is legal after each outcome of a command on a block that is not faulted (60_exceptions.md R265). -/

theorem Status.legal_faulted {c : Cause} (h : c.isFault = true) : (Status.faulted c).Legal :=
  .inr (.inr ⟨rfl, rfl, h⟩)

theorem Status.legal_invalidated {st : Status} {c : Cause} (hf : st.fault = false) (h : c.isInvalid = true) :
    (st.invalidated c).Legal :=
  .inr (.inl ⟨rfl, hf, h⟩)

theorem Status.legal_succeeded {st : Status} (hf : st.fault = false) : st.succeeded.Legal :=
  .inl ⟨rfl, hf, rfl⟩

/-- A command whose registers exist, on a block that is not faulted, keeps the invariant. -/
theorem exec_keeps_inv {i : Instr} {s t : State} (hs : s.Inv) (hf : s.status.fault = false)
    (hw : i.wellFormed s.params.nbs = true) (h : exec i s = .next t) : t.Inv := by
  rcases exec_next h with ⟨c, i0, i1, hc, ht⟩ | ⟨c, i0, i1, u, hc, hu, ht⟩ | ⟨u, hu, ht⟩
  · cases ht
    exact hs.outcome _ _ _ (Status.legal_faulted hc)
  · cases ht
    have hfu : u.status.fault = false := by cases hu <;> exact hf
    exact (hu.inv hs).outcome _ _ _ (Status.legal_invalidated hfu hc)
  · cases ht
    have hfu : u.status.fault = false := by cases hu <;> exact hf
    exact (hu.inv hs hw).outcome _ _ _ (Status.legal_succeeded hfu)

/-! ## Register writes -/

/-- BSEL holds the legal value written: below NBS, 16 or 17, it fits 5 bits (20_memory.md R94). -/
theorem legalBsel_setWidth {nbs : Nat} {v : Word32} (hn : nbs ≤ 16) (h : legalBsel nbs v.toNat = true) :
    legalBsel nbs (v.setWidth 5).toNat = true := by
  have hv : v.toNat < 2 ^ 5 := by
    simp only [legalBsel, Bool.or_eq_true, decide_eq_true_eq, beq_iff_eq] at h
    omega
  rwa [BitVec.toNat_setWidth, Nat.mod_eq_of_lt hv]

/-- A BDATA write keeps IBUF canonical and below VMAX (20_memory.md R95). -/
theorem writeBdata_keeps_inv (v : Word32) {s : State} (hs : s.Inv) : (writeBdata v s).Inv := by
  unfold writeBdata
  split
  · rename_i hw
    exact { hs with
      ibufWf := Memory.wf_write _ _ _ hs.ibufWf
      ibufBelow := fun a ha => (Memory.isSome_read_write _ _ _ _ ha).elim (· ▸ hw.2) (hs.ibufBelow a) }
  · exact hs.congr rfl rfl rfl rfl rfl rfl hs.statusLegal

/-- A write of any register of the window keeps the invariant: ILEN and BSEL take legal values only. -/
theorem writeReg_keeps_inv (r : WindowReg) (v : Word32) {s : State} (hs : s.Inv) : (writeReg r v s).Inv := by
  cases r with
  | ilen =>
    simp only [writeReg]
    split
    · exact { hs with ilenFits := ‹_› }
    · exact hs
  | bsel =>
    simp only [writeReg]
    split
    · exact { hs with bselLegal := legalBsel_setWidth hs.paramsLegal.2.1 ‹_› }
    · exact hs
  | bdata => exact writeBdata_keeps_inv v hs
  | arg0Lo | arg0Hi | arg1Lo | arg1Hi | baddr => exact hs.congr rfl rfl rfl rfl rfl rfl hs.statusLegal
  | _ => exact hs

/-! ## Steps -/

/-- Settles O12: each shape of a step keeps the invariant. -/
theorem stepKeepsInvariant : Obligations.StepKeepsInvariant := by
  intro s t hs h
  cases step_cases h with
  | idle _ ht => exact ht ▸ hs.served s.host none
  | reset rest _ ht => exact ht ▸ (State.inv_resetFor s.params hs.paramsLegal).served rest none
  | peeked a v rest _ ht => exact ht ▸ hs.served rest _
  | byteRead a v rest _ _ ht => exact ht ▸ hs.congr rfl rfl rfl rfl rfl rfl hs.statusLegal
  | wrote a v rest _ ht => exact ht ▸ writeReg_keeps_inv _ v (hs.served rest _)
  | ignored a w rest _ _ ht => exact ht ▸ hs.served rest _
  | illegal a w rest _ _ ht =>
    cases ht
    exact (hs.served rest _).outcome _ _ _ (Status.legal_faulted rfl)
  | command a w i rest _ hf _ hw ht => exact exec_keeps_inv (hs.served rest _) hf hw ht

/-- Settles O13: the default parameters are legal, and reset establishes the invariant for all legal ones. -/
theorem resetHasInvariant : Obligations.ResetHasInvariant :=
  ⟨State.inv_resetFor Params.defaults (by decide), State.inv_resetFor⟩

end Sys2Proof.Machine
end

/-! # What every command changes and leaves alone -/

section
namespace Sys2Proof.Machine

/-- A register other than the one written is unchanged. -/
theorem BankKeptBut.eq_of_ne {r q : RegIdx} {s t : State} (h : BankKeptBut r s t) (hq : t.bs q ≠ s.bs q) :
    q = r :=
  not_imp_comm.1 (h q) hq

/-- Settles O18: what a command hands to its outcome has the inputs as before, and the outcome keeps them. -/
theorem commandsKeepInputs : Obligations.CommandsKeepInputs := by
  intro i s t h
  obtain ⟨u, hu, ht⟩ := exec_writes h
  have hk : InputsKept s u := by
    rcases hu with rfl | hu | hu
    · exact .refl _
    · exact hu.inputs.1
    · exact hu.inputs.1
  rw [ht]
  exact ⟨hk.params, hk.arg0, hk.arg1, hk.ibuf, hk.ilen, hk.bsel, hk.baddr, hk.host, hk.reply⟩

/-- The writers of RES (10_state.md R42). -/
theorem exec_res_writer {i : Instr} {s t : State} (h : exec i s = .next t) (hne : t.res ≠ s.res) :
    ∃ rs, i = .getbit rs ∨ i = .maxbit rs ∨ i = .touint rs := by
  obtain ⟨u, hu, ht⟩ := exec_writes h
  replace hne : u.res ≠ s.res := by rwa [ht] at hne
  rcases hu with rfl | hu | hu
  · exact absurd rfl hne
  · cases hu with
    | zeroResult rs => exact ⟨rs, .inl rfl⟩
    | output => exact absurd rfl hne
  · cases hu with
    | result _ rs _ hi => exact ⟨rs, hi⟩
    | whole | packed | replaced | value => exact absurd rfl hne

/-- The writers of OBUF (10_state.md R41). -/
theorem exec_obuf_writer {i : Instr} {s t : State} (h : exec i s = .next t) (hne : t.obuf ≠ s.obuf) :
    i = .u2b ∨ ∃ rs, i = .updv rs ∨ i = .trunc rs := by
  obtain ⟨u, hu, ht⟩ := exec_writes h
  replace hne : u.obuf ≠ s.obuf := by rwa [ht] at hne
  rcases hu with rfl | hu | hu
  · exact absurd rfl hne
  · cases hu with
    | output _ rs _ hi => exact .inr ⟨rs, hi⟩
    | zeroResult => exact absurd rfl hne
  · cases hu with
    | packed => exact .inl rfl
    | replaced _ rs _ hi => exact .inr ⟨rs, hi⟩
    | whole | result | value => exact absurd rfl hne

/-- The writers of a bit-string register (10_state.md R31): the command names it as `rd`, or it is the
receiver of UPDV, TRUNC, FROMUINT or ADDUINT, is present and stays so (R33). -/
theorem exec_bank_writer {i : Instr} {s t : State} {r : RegIdx} (h : exec i s = .next t)
    (hne : t.bs r ≠ s.bs r) :
    i.rd? = some r ∨
    ((i = .updv r ∨ i = .trunc r ∨ i = .fromuint r ∨ i = .adduint r) ∧ (t.bs r).p = true) := by
  obtain ⟨u, hu, ht⟩ := exec_writes h
  have hb : t.bs r = u.bs r := by rw [ht]; rfl
  rw [hb] at hne ⊢
  rcases hu with rfl | hu | hu
  · exact absurd rfl hne
  · exact absurd (State.bs_congr hu.inputs.2.2 r) hne
  · cases hu with
    | whole _ rd b hi =>
      rw [(BankKeptBut.setBs s rd b).eq_of_ne hne]
      exact .inl hi
    | replaced _ rs xs hi hp =>
      cases (BankKeptBut.setVal s rs xs).eq_of_ne hne
      exact .inr ⟨hi.imp_right .inl, by simpa using hp⟩
    | value _ rs xs hi hp =>
      cases (BankKeptBut.setVal s rs xs).eq_of_ne hne
      exact .inr ⟨.inr (.inr hi), by simpa using hp⟩
    | packed | result => exact absurd rfl hne

/-- Settles O19: the writers of RES, of OBUF and of each register. -/
theorem outputsWrittenOnlyByTheirCommands : Obligations.OutputsWrittenOnlyByTheirCommands :=
  fun _ _ _ h => ⟨exec_res_writer h, exec_obuf_writer h, fun _ hne => (exec_bank_writer h hne).imp_right And.left⟩

/-- A successful command that names `rd` and is not NULLBS leaves it present. -/
theorem SuccessState.rd_present {s u : State} {i : Instr} {r : RegIdx} (h : SuccessState s i u)
    (hr : i.rd? = some r) (hi : i ≠ .nullbs r) : (u.bs r).p = true := by
  cases h with
  | loadbs | newbs | subbs => cases hr; simp
  | nullbs rd => cases hr; exact absurd rfl hi
  | _ => cases hr

/-- Settles O23: a register that changes is written by name; every such write but that of NULLBS sets P. -/
theorem onlyNullbsMakesNull : Obligations.OnlyNullbsMakesNull := by
  intro i s t r h hs ht
  by_contra hi
  have hne : t.bs r ≠ s.bs r := fun e => by simp [e, hs] at ht
  rcases exec_bank_writer h hne with hr | ⟨-, hp⟩
  · rcases exec_next h with ⟨c, i0, i1, -, he⟩ | ⟨c, i0, i1, u, -, hu, he⟩ | ⟨u, hu, he⟩
    · cases he
      exact hne rfl
    · cases he
      cases hu <;> exact hne rfl
    · cases he
      exact Bool.false_ne_true (ht.symm.trans (hu.rd_present hr hi))
  · exact Bool.false_ne_true (ht.symm.trans hp)

/-- Settles O24: the bytes written are as many as the length needs, by packing, by UPDV's length check, or because
the receiver had I1 and keeps its byte count. -/
theorem successEstablishesI1 : Obligations.SuccessEstablishesI1 := by
  intro i r s t h hc hi
  obtain ⟨u, hu, ht⟩ := exec_ok h hc
  cases ht
  change (u.bs r).I1
  rcases hi with rfl | ⟨rs, rfl⟩ | rfl | rfl | rfl | rfl
  · cases hu with | newbs => simp [BitString.I1, BitString.vlen]
  · cases hu with | subbs => simp [BitString.I1, BitString.vlen]
  · cases hu with | updv _ xs hp hl hx => simpa [BitString.I1, BitString.vlen] using hx.1.trans hl
  · cases hu with | trunc _ hp h0 hl => simpa [BitString.I1, BitString.vlen] using hl
  · cases hu with | fromuint => simp [BitString.I1, BitString.vlen]
  · cases hu with | adduint => simp [BitString.I1, BitString.vlen]

end Sys2Proof.Machine
end

/-! # Bits and bytes of the numeric value -/

section
namespace Sys2Proof.Machine

/-- A stored byte is the 8 bits of the big-endian integer above the bytes that follow it (10_state.md R37). -/
theorem beval_div_mod (xs ys : List Byte) (x : Byte) :
    beval (xs ++ x :: ys) / 256 ^ ys.length % 256 = x.toNat := by
  have hx : x.toNat < 256 := x.isLt
  have hv : beval (xs ++ x :: ys) = 256 ^ ys.length * (beval xs * 256 + x.toNat) + beval ys := by
    rw [beval_append, beval_cons, List.length_cons]
    ring
  rw [hv, Nat.mul_add_div (Nat.pow_pos (by decide)), Nat.div_eq_of_lt (beval_lt ys)]
  omega

/-- Byte `VLEN - 1 - j` is byte `j` of the big-endian integer, counted from its low end. -/
theorem toNat_getElem_eq_beval (xs : List Byte) (j : Nat) (hj : j < xs.length) :
    xs[xs.length - 1 - j].toNat = beval xs / 256 ^ j % 256 := by
  have hk : xs.length - 1 - j < xs.length := by omega
  have hlen : (xs.drop (xs.length - 1 - j + 1)).length = j := by
    rw [List.length_drop]
    omega
  have h := beval_div_mod (xs.take (xs.length - 1 - j)) (xs.drop (xs.length - 1 - j + 1)) xs[xs.length - 1 - j]
  rw [List.getElem_cons_drop, List.take_append_drop, hlen] at h
  exact h.symm

/-- The bit read at a stored position is that bit of the big-endian integer (10_state.md R36). -/
theorem readbit_eq_testBit (b : BitString) (p : Nat) (hp : p / 8 < b.val.length) :
    readbit b p = some ((beval b.val).testBit p) := by
  have hi : b.val.length - 1 - p / 8 < b.val.length := by omega
  have hbit : (b.val[b.val.length - 1 - p / 8]).getLsbD (p % 8) = (beval b.val).testBit p := by
    rw [BitVec.getLsbD, toNat_getElem_eq_beval b.val (p / 8) hp, pow256, show 256 = 2 ^ 8 from rfl,
      Nat.testBit_mod_two_pow, Nat.testBit_div_two_pow, Nat.mod_add_div]
    simp [Nat.mod_lt]
  simp [readbit, BitString.vlen, hp, hi, hbit]

/-- Settles O39, by the bytes of the big-endian fold. -/
theorem readbitIsIntegerBit : Obligations.ReadbitIsIntegerBit := by
  intro b p
  constructor
  · intro hp
    rw [readbit_eq_testBit b p hp, Nat.testBit_eq_decide_div_mod_eq]
  · intro hp
    exact if_neg (Nat.not_lt.2 hp)

/-- TRUNC's byte mask has exactly the bits from `t` up (41_update.md R177). -/
theorem getLsbD_keepMask (t j : Nat) (ht : t < 8) (hj : j < 8) :
    (keepMask t).getLsbD j = !decide (j < t) := by
  have hlt : 2 ^ t - 1 < 2 ^ 8 :=
    (Nat.sub_le _ _).trans_lt (Nat.pow_lt_pow_right (by decide) ht)
  have h255 : 255 - (2 ^ t - 1) = 2 ^ 8 - (2 ^ t - 1 + 1) := by omega
  rw [keepMask, BitVec.getLsbD_ofNat, h255, Nat.testBit_two_pow_sub_succ hlt, Nat.testBit_two_pow_sub_one]
  simp [hj]

/-- Masking a byte clears its low `t` bits and no others. -/
theorem toNat_and_keepMask (x : Byte) (t : Nat) (ht : t < 8) :
    (x &&& keepMask t).toNat = x.toNat - x.toNat % 2 ^ t := by
  have hshift : x &&& keepMask t = (x >>> t) <<< t := by
    apply BitVec.eq_of_getLsbD_eq
    intro j hj
    rw [BitVec.getLsbD_and, getLsbD_keepMask t j ht hj, BitVec.getLsbD_shiftLeft, BitVec.getLsbD_ushiftRight]
    by_cases h : j < t
    · simp [h]
    · simp [h, hj, Nat.add_sub_of_le (Nat.not_lt.1 h)]
  have hle : x.toNat / 2 ^ t * 2 ^ t < 2 ^ 8 := (Nat.div_mul_le_self _ _).trans_lt x.isLt
  rw [hshift, BitVec.toNat_shiftLeft, BitVec.toNat_ushiftRight, Nat.shiftLeft_eq, Nat.shiftRight_eq_div_pow,
    Nat.mod_eq_of_lt hle]
  exact Nat.div_mul_self_eq_mod_sub_self

/-- TRUNC's bytes hold the value less its remainder modulo 2^t, t the trailing-bit count. -/
theorem beval_truncBytes (xs : List Byte) (L : Nat) (hL : L ≠ 0) (hlen : xs.length = nbytes L) :
    beval (truncBytes xs L) = beval xs - beval xs % 2 ^ trailingBits L := by
  rcases List.eq_nil_or_concat xs with rfl | ⟨ys, x, rfl⟩
  · exact absurd (nbytes_pos L hL) (by simp [← hlen])
  · have ht := trailingBits_lt L
    have hlast : nbytes L - 1 = ys.length := by simp [← hlen]
    have hdvd : 2 ^ trailingBits L ∣ beval ys * 256 :=
      (pow_dvd_pow 2 ht.le).mul_left _
    have hmod : (beval ys * 256 + x.toNat) % 2 ^ trailingBits L = x.toNat % 2 ^ trailingBits L := by
      rw [Nat.add_mod, Nat.mod_eq_zero_of_dvd hdvd, Nat.zero_add, Nat.mod_mod]
    have hbytes : truncBytes (ys ++ [x]) L = ys ++ [x &&& keepMask (trailingBits L)] := by
      simp [truncBytes, hlast, List.modify_eq_take_drop]
    have hle := Nat.mod_le x.toNat (2 ^ trailingBits L)
    rw [List.concat_eq_append, hbytes, beval_append_singleton, beval_append_singleton,
      toNat_and_keepMask x _ ht, hmod]
    omega

/-- Settles O42: the last byte's masked bits are the low end of the value. -/
theorem truncClearsLowEnd : Obligations.TruncClearsLowEnd := by
  intro s t rs h hc
  obtain ⟨u, hu, ht⟩ := exec_ok h hc
  cases ht
  cases hu with
  | trunc _ hp h0 hl =>
    have h0 : (s.bs rs).len.toNat ≠ 0 := fun e => h0 (BitVec.eq_of_toNat_eq e)
    have hval : beval ((s.setVal rs (truncBytes (s.bs rs).val (s.bs rs).len.toNat)).bs rs).val =
        beval (s.bs rs).val - beval (s.bs rs).val % 2 ^ trailingBits (s.bs rs).len.toNat := by
      rw [State.bs_setVal_same]
      exact beval_truncBytes _ _ h0 hl
    exact ⟨hval, hval ▸ Nat.mod_eq_zero_of_dvd (Nat.dvd_sub_mod _)⟩

end Sys2Proof.Machine
end

/-! # Reset -/

section
namespace Sys2Proof.Machine

theorem subOrderCode_le (o : SubOrder) : subOrderCode o ≤ 2 := by cases o <;> decide

/-- CAPS as a number: for legal parameters nothing is cut off (10_state.md R47). -/
theorem toNat_capsWord {p : Params} (hp : p.Legal) :
    (capsWord p).toNat = p.nbs + 64 * 2 ^ 8 + p.u2bMask.toNat * 2 ^ 16 + subOrderCode p.subOrder * 2 ^ 17 := by
  obtain ⟨-, hnbs, -, -⟩ := hp
  have hmask := p.u2bMask.toNat_le
  have horder := subOrderCode_le p.subOrder
  rw [capsWord, BitVec.toNat_ofNat, Nat.mod_eq_of_lt (by omega : p.nbs < 32), Nat.mod_eq_of_lt (by omega)]

theorem toNat_vmaxWord {p : Params} (hp : p.Legal) : (vmaxWord p).toNat = p.vmax := by
  obtain ⟨-, -, -, hvmax⟩ := hp
  rw [vmaxWord, BitVec.toNat_ofNat, Nat.mod_eq_of_lt (by omega)]

/-- STATUS reads 0 after reset (10_state.md R50). -/
theorem word_status_resetFor (p : Params) : (State.resetFor p).status.word = 0 := by
  change Status.word { cause := .ok, err := false, fault := false } = 0
  decide

/-- Settles O10: the fields of the reset state, and CAPS and VMAXR as numbers. -/
theorem resetStateValues : Obligations.ResetStateValues := by
  intro p
  refine ⟨State.bs_resetFor p, rfl, rfl, rfl, fun _ => rfl, rfl, rfl, word_status_resetFor p,
    rfl, rfl, rfl, rfl, rfl, rfl, rfl, fun hp => ⟨toNat_vmaxWord hp, ?_⟩⟩
  have hmask : p.u2bMask.toNat = if p.u2bMask then 1 else 0 := by cases p.u2bMask <;> rfl
  rw [toNat_capsWord hp, hmask]
  rfl

/-- Settles O11: the pulse leaves the reset state, with the parameters and the host's further accesses. -/
theorem resetPulseResets : Obligations.ResetPulseResets := by
  intro s rest h
  exact ⟨_, step_resetPulse h, State.bs_resetFor s.params, rfl, rfl, rfl, fun _ => rfl, rfl, rfl,
    word_status_resetFor s.params, rfl, rfl, rfl, rfl, rfl, rfl, rfl⟩

end Sys2Proof.Machine
end

/-! # Reads of the window -/

section
namespace Sys2Proof.Machine

/-- A register read does not look at the host's list. -/
theorem peek_host (s : State) (rest : List HostEvent) (r : WindowReg) :
    peek { s with host := rest } r = peek s r := by cases r <;> rfl

/-- A step that reads an aligned offset other than BDATA answers its register's word and nothing else changes. -/
theorem step_read_peek {s : State} {a : Offset} {rest : List HostEvent} (h : s.host = .read a :: rest)
    (ha : a.toNat % 4 = 0) (hb : windowReg a ≠ .bdata) :
    step s = .next { s with host := rest, reply := some (.data (peek s (windowReg a))) } := by
  rw [step_read h, memRead_of_ne ha hb, peek_host]
  rfl

theorem toNat_lowHalf (x : Word64) : (x.extractLsb' 0 32).toNat = x.toNat % 2 ^ 32 := by simp

theorem toNat_highHalf (x : Word64) : (x.extractLsb' 32 32).toNat = x.toNat / 2 ^ 32 := by
  have hx := x.isLt
  rw [BitVec.extractLsb'_toNat, Nat.shiftRight_eq_div_pow]
  omega

/-- The STATUS word as a number: the code of R260, ERR at 0x100, FAULT at 0x200 (60_exceptions.md R265). -/
theorem Status.toNat_word (st : Status) :
    st.word.toNat = causeNumber st.cause + (if st.err then 0x100 else 0) + (if st.fault then 0x200 else 0) := by
  obtain ⟨cause, err, fault⟩ := st
  cases err <;> cases fault <;> cases cause <;> rfl

/-- Settles O50: each named offset is an aligned one other than BDATA, and its register reads the word given. -/
theorem windowReads : Obligations.WindowReads := by
  intro s a rest v h hv
  have hread (ha : a.toNat % 4 = 0) (hb : windowReg a ≠ .bdata) (hp : peek s (windowReg a) = v) :
      step s = .next { s with host := rest, reply := some (.data v) } := hp ▸ step_read_peek h ha hb
  have hword (ha : a.toNat % 4 = 0) (hb : windowReg a ≠ .bdata) (hp : (peek s (windowReg a)).toNat = v.toNat) :
      step s = .next { s with host := rest, reply := some (.data v) } := hread ha hb (BitVec.eq_of_toNat_eq hp)
  rcases hv with ⟨rfl, rfl⟩ | ⟨rfl, rfl⟩ | ⟨rfl, rfl⟩ | ⟨rfl, hv⟩ | ⟨rfl, rfl⟩ | ⟨rfl, rfl⟩ |
    ⟨rfl, hv⟩ | ⟨rfl, hv⟩ | ⟨rfl, hv⟩ | ⟨rfl, hv⟩ | ⟨rfl, hv⟩ | ⟨rfl, hv⟩ |
    ⟨rfl, rfl⟩ | ⟨rfl, rfl⟩ | ⟨rfl, hv⟩ | ⟨rfl, rfl⟩
  · exact hread rfl nofun rfl
  · exact hread rfl nofun rfl
  · exact hread rfl nofun rfl
  · exact hword rfl nofun ((Status.toNat_word _).trans hv.symm)
  · exact hread rfl nofun rfl
  · exact hread rfl nofun rfl
  · exact hword rfl nofun ((toNat_lowHalf _).trans hv.symm)
  · exact hword rfl nofun ((toNat_highHalf _).trans hv.symm)
  · exact hword rfl nofun ((toNat_lowHalf _).trans hv.symm)
  · exact hword rfl nofun ((toNat_highHalf _).trans hv.symm)
  · exact hword rfl nofun ((toNat_lowHalf _).trans hv.symm)
  · exact hword rfl nofun ((toNat_highHalf _).trans hv.symm)
  · exact hread rfl nofun rfl
  · exact hread rfl nofun rfl
  · exact hword rfl nofun ((BitVec.toNat_setWidth_of_le (by decide)).trans hv.symm)
  · exact hread rfl nofun rfl

/-- Settles O51, from CAPS as a number. -/
theorem capsReportsParameters : Obligations.CapsReportsParameters := by
  intro s rest hp h
  refine ⟨capsWord s.params, step_read_peek h rfl nofun, ?_⟩
  have hnbs : s.params.nbs ≤ 16 := hp.2.1
  have horder := subOrderCode_le s.params.subOrder
  have hmask : s.params.u2bMask = true ↔ s.params.u2bMask.toNat = 1 := Bool.toNat_eq_one.symm
  have hmask_le := s.params.u2bMask.toNat_le
  change _ ∧ _ ∧ _ ∧ _ ∧ _ = subOrderCode s.params.subOrder ∧ _
  rw [toNat_capsWord hp, hmask]
  omega

end Sys2Proof.Machine
end

/-! # The register map, read backwards

`offsetOf` says where a register of the window stands; an offset that names a register is that place, so a
case split on the register an offset names fixes the offset. -/

section
namespace Sys2Proof.Machine

/-- The offsets of the headers of `B[i]` as numbers: nothing is cut off (20_memory.md R87). -/
theorem toNat_offsetOf_headers (i : RegIdx) :
    (offsetOf (.bctl i)).toNat = 0x100 + 0x10 * i.toNat ∧
    (offsetOf (.blen i)).toNat = 0x104 + 0x10 * i.toNat ∧
    (offsetOf (.bvlen i)).toNat = 0x108 + 0x10 * i.toNat := by
  have hi := i.isLt
  simp only [offsetOf, BitVec.toNat_ofNat]
  omega

/-- The header an offset of `B[i]`'s range names stands at that offset (20_memory.md R87). -/
theorem toNat_offsetOf_headerReg {i : RegIdx} {j : Nat} (h : headerReg i j ≠ .reserved) :
    (offsetOf (headerReg i j)).toNat = 0x100 + 0x10 * i.toNat + j := by
  obtain ⟨hctl, hlen, hvlen⟩ := toNat_offsetOf_headers i
  unfold headerReg at h ⊢
  split at h
  · omega
  · omega
  · omega
  · exact absurd rfl h

/-- The register an offset names stands at that offset (20_memory.md R87). -/
theorem offsetOf_windowReg {a : Offset} (h : windowReg a ≠ .reserved) : offsetOf (windowReg a) = a := by
  apply BitVec.eq_of_toNat_eq
  unfold windowReg at h ⊢
  split at h
  case h_19 =>
    split at h
    · rename_i hrange
      rw [if_pos hrange, toNat_offsetOf_headerReg h, BitVec.toNat_ofNat]
      omega
    · exact absurd rfl h
  all_goals exact Eq.symm ‹a.toNat = _›

theorem eq_offsetOf {a : Offset} {r : WindowReg} (h : windowReg a = r) (hr : r ≠ .reserved) :
    a = offsetOf r := by
  subst h
  exact (offsetOf_windowReg hr).symm

theorem windowReg_ne {a : Offset} {r : WindowReg} (h : a ≠ offsetOf r) (hr : r ≠ .reserved) :
    windowReg a ≠ r :=
  fun e => h (eq_offsetOf e hr)

/-- The headers of `B[i]` are where the map puts them (20_memory.md R87). -/
theorem windowReg_offsetOf_headers (i : RegIdx) :
    windowReg (offsetOf (.bctl i)) = .bctl i ∧ windowReg (offsetOf (.blen i)) = .blen i ∧
    windowReg (offsetOf (.bvlen i)) = .bvlen i := by
  decide +revert

end Sys2Proof.Machine
end

/-! # Accesses of the window as steps -/

section
namespace Sys2Proof.Machine

/-! ## Registers without side effects -/

/-- A step that writes an aligned offset other than CMD writes the register the offset names. -/
theorem step_write_reg {s : State} {a : Offset} {v : Word32} {rest : List HostEvent}
    (h : s.host = .write a v :: rest) (ha : a.toNat % 4 = 0) (hc : a ≠ 0x00C) :
    step s = .next (writeReg (windowReg a) v { s with host := rest, reply := some .written }) := by
  rw [step_write h, memWrite_of_ne ha (windowReg_ne hc nofun)]

/-- What a write of the register `r` leaves of the state the window can write (20_memory.md R86). -/
structure OthersKept (r : WindowReg) (s t : State) : Prop where
  arg0 : r ≠ .arg0Lo → r ≠ .arg0Hi → t.arg0 = s.arg0
  arg1 : r ≠ .arg1Lo → r ≠ .arg1Hi → t.arg1 = s.arg1
  ilen : r ≠ .ilen → t.ilen = s.ilen
  bsel : r ≠ .bsel → t.bsel = s.bsel
  baddr : r ≠ .baddr → r ≠ .bdata → t.baddr = s.baddr
  ibuf : r ≠ .bdata → t.ibuf = s.ibuf

theorem OthersKept.refl (r : WindowReg) (s : State) : OthersKept r s s :=
  ⟨fun _ _ => rfl, fun _ _ => rfl, fun _ => rfl, fun _ => rfl, fun _ _ => rfl, fun _ => rfl⟩

theorem OthersKept.ite {r : WindowReg} {c : Prop} [Decidable c] {s t u : State} (ht : OthersKept r s t)
    (hu : OthersKept r s u) : OthersKept r s (if c then t else u) := by
  split <;> assumption

/-- A register write changes at most the register it names (20_memory.md R86). -/
theorem writeReg_othersKept (r : WindowReg) (v : Word32) (s : State) : OthersKept r s (writeReg r v s) := by
  have hk := OthersKept.refl r s
  cases r with
  | arg0Lo => exact { hk with arg0 := fun h => absurd rfl h }
  | arg0Hi => exact { hk with arg0 := fun _ h => absurd rfl h }
  | arg1Lo => exact { hk with arg1 := fun h => absurd rfl h }
  | arg1Hi => exact { hk with arg1 := fun _ h => absurd rfl h }
  | ilen => exact .ite { hk with ilen := fun h => absurd rfl h } hk
  | bsel => exact .ite { hk with bsel := fun h => absurd rfl h } hk
  | baddr => exact { hk with baddr := fun h => absurd rfl h }
  | bdata =>
    have hbump : OthersKept .bdata s s.bumpBaddr := { hk with baddr := fun _ h => absurd rfl h }
    exact .ite { hbump with ibuf := fun h => absurd rfl h } hbump
  | _ => exact hk

/-- A state the window has written differs in ARG0, ARG1, ILEN, BSEL, BADDR and IBUF only. -/
theorem WindowKept.eq_update {s t : State} (h : WindowKept s t) (hi : t.ibuf = s.ibuf) :
    t = { s with arg0 := t.arg0, arg1 := t.arg1, ilen := t.ilen, bsel := t.bsel, baddr := t.baddr } := by
  obtain ⟨hparams, hbank, hres, hobuf, hstatus, hinfo0, hinfo1, hhost, hreply⟩ := h
  rw [← hparams, ← hbank, ← hres, ← hobuf, ← hstatus, ← hinfo0, ← hinfo1, ← hhost, ← hreply, ← hi]

/-- Settles O49: a read by `step_read_peek`, a write by what a register write keeps. -/
theorem sideEffectsOnlyWhereNamed : Obligations.SideEffectsOnlyWhereNamed := by
  intro s a v rest ha hdata
  have hb : windowReg a ≠ .bdata := windowReg_ne hdata nofun
  refine ⟨fun h => ⟨_, step_read_peek h ha hb⟩, fun h hc => ?_⟩
  have hk := writeReg_othersKept (windowReg a) v { s with host := rest, reply := some .written }
  have hu := (writeReg_kept (windowReg a) v { s with host := rest, reply := some .written }).eq_update (hk.ibuf hb)
  refine ⟨_, _, _, _, _, (step_write_reg h ha hc).trans (congrArg _ hu), ?_, ?_, ?_, ?_, ?_, ?_⟩
  · exact fun hlo hhi => hk.arg0 (windowReg_ne hlo nofun) (windowReg_ne hhi nofun)
  · exact fun hlo hhi => hk.arg1 (windowReg_ne hlo nofun) (windowReg_ne hhi nofun)
  · exact fun hne => hk.ilen (windowReg_ne hne nofun)
  · exact fun hne => hk.bsel (windowReg_ne hne nofun)
  · exact fun hne => hk.baddr (windowReg_ne hne nofun) hb
  · rintro rfl
    rfl

/-! ## Headers, reserved and read-only offsets -/

theorem header_of_lt {s : State} {i : RegIdx} (h : i.toNat < s.params.nbs) (field : BitString → Nat) :
    header s i field = BitVec.ofNat 32 (field (s.bs i)) := if_pos h

theorem header_of_ge {s : State} {i : RegIdx} (h : s.params.nbs ≤ i.toNat) (field : BitString → Nat) :
    header s i field = 0 := if_neg h.not_gt

/-- A step that reads a register of the map, where that register stands, other than BDATA. -/
theorem step_read_offsetOf {s : State} {r : WindowReg} {rest : List HostEvent}
    (h : s.host = .read (offsetOf r) :: rest) (hr : windowReg (offsetOf r) = r)
    (ha : (offsetOf r).toNat % 4 = 0) (hb : r ≠ .bdata) :
    step s = .next { s with host := rest, reply := some (.data (peek s r)) } := by
  rw [step_read_peek h ha (hr.symm ▸ hb), hr]

/-- Settles O52: the headers of a register below NBS. -/
theorem headerReads : Obligations.HeaderReads := by
  intro s i rest hi
  obtain ⟨hctl, hlen, hvlen⟩ := windowReg_offsetOf_headers i
  obtain ⟨actl, alen, avlen⟩ := toNat_offsetOf_headers i
  refine ⟨fun h => ?_, fun h => ?_, fun h => ?_⟩
  · rw [step_read_offsetOf h hctl (by omega) nofun, peek, header_of_lt hi]
  · rw [step_read_offsetOf h hlen (by omega) nofun, peek, header_of_lt hi, BitVec.ofNat_toNat, BitVec.setWidth_eq]
  · rw [step_read_offsetOf h hvlen (by omega) nofun, peek, header_of_lt hi, BitString.vlen]

/-- The offsets whose registers a write can change (20_memory.md R87: the RW ones), CMD aside. -/
def WritableOffset (a : Offset) : Prop :=
  a = 0x020 ∨ a = 0x024 ∨ a = 0x028 ∨ a = 0x02C ∨ a = 0x040 ∨ a = 0x050 ∨ a = 0x054 ∨ a = 0x058

/-- A write of a read-only or reserved offset has no effect (20_memory.md R90, R91). -/
theorem writeReg_of_not_writable {a : Offset} (h : ¬ WritableOffset a) (v : Word32) (s : State) :
    writeReg (windowReg a) v s = s := by
  cases hr : windowReg a with
  | arg0Lo | arg0Hi | arg1Lo | arg1Hi | ilen | bsel | baddr | bdata =>
    obtain rfl := eq_offsetOf hr nofun
    exact absurd (by simp [WritableOffset, offsetOf]) h
  | _ => rfl

/-- A step that writes a read-only or reserved offset only takes the access off the host's list. -/
theorem step_write_ignored {s : State} {a : Offset} {v : Word32} {rest : List HostEvent}
    (h : s.host = .write a v :: rest) (ha : a.toNat % 4 = 0) (hc : a ≠ 0x00C) (hw : ¬ WritableOffset a) :
    step s = .next { s with host := rest, reply := some .written } := by
  rw [step_write_reg h ha hc, writeReg_of_not_writable hw]

/-- The map reserves no writable offset, and neither CMD nor BDATA (20_memory.md R87). -/
theorem OffsetReserved.not_writable {nbs : Nat} {a : Offset} (h : OffsetReserved nbs a.toNat) :
    ¬ WritableOffset a ∧ a ≠ 0x00C ∧ a ≠ 0x058 := by
  unfold OffsetReserved at h
  refine ⟨?_, ?_, ?_⟩
  · rintro (rfl | rfl | rfl | rfl | rfl | rfl | rfl | rfl) <;> simp at h
  · rintro rfl; simp at h
  · rintro rfl; simp at h

/-- A header is reserved only when its register does not exist (20_memory.md R92). -/
theorem OffsetReserved.absent {nbs : Nat} {i : RegIdx} {a : Offset} (h : OffsetReserved nbs a.toNat)
    (hr : windowReg a = .bctl i ∨ windowReg a = .blen i ∨ windowReg a = .bvlen i) : nbs ≤ i.toNat := by
  have hi := i.isLt
  obtain ⟨hctl, hlen, hvlen⟩ := toNat_offsetOf_headers i
  unfold OffsetReserved at h
  rcases hr with hr | hr | hr <;>
  · rw [eq_offsetOf hr nofun] at h
    omega

/-- A reserved offset reads 0 (20_memory.md R90, R92). -/
theorem peek_of_reserved {s : State} {a : Offset} (h : OffsetReserved s.params.nbs a.toNat) :
    peek s (windowReg a) = 0 := by
  cases hr : windowReg a with
  | bctl i => rw [peek, header_of_ge (h.absent (.inl hr))]
  | blen i => rw [peek, header_of_ge (h.absent (.inr (.inl hr)))]
  | bvlen i => rw [peek, header_of_ge (h.absent (.inr (.inr hr)))]
  | reserved | cmd | bdata => rfl
  | _ =>
    obtain rfl := eq_offsetOf hr nofun
    simp [OffsetReserved, offsetOf] at h

/-- Settles O53: a reserved offset is not writable, and reads 0. -/
theorem reservedOffsets : Obligations.ReservedOffsets := by
  intro s a v rest ha hres
  obtain ⟨hw, hc, hb⟩ := hres.not_writable
  refine ⟨fun h => ?_, fun h => step_write_ignored h ha hc hw⟩
  rw [step_read_peek h ha (windowReg_ne hb nofun), peek_of_reserved hres]

/-- Settles O54: no read-only offset is writable or CMD; CMD reads 0. -/
theorem readOnlyRegisters : Obligations.ReadOnlyRegisters := by
  intro s a v rest
  refine ⟨fun h ha hro => step_write_ignored h ha ?_ ?_, fun h => step_read_peek h rfl nofun⟩
  · rintro rfl
    simp at hro
  · rintro (rfl | rfl | rfl | rfl | rfl | rfl | rfl | rfl) <;> simp at hro

/-! ## Arguments, ILEN and BSEL -/

theorem toNat_withLo (x : Word64) (v : Word32) : (withLo x v).toNat = x.toNat / 2 ^ 32 * 2 ^ 32 + v.toNat := by
  rw [withLo, BitVec.toNat_append, ← Nat.shiftLeft_add_eq_or_of_lt v.isLt, toNat_highHalf, Nat.shiftLeft_eq]

theorem toNat_withHi (x : Word64) (v : Word32) : (withHi x v).toNat = v.toNat * 2 ^ 32 + x.toNat % 2 ^ 32 := by
  rw [withHi, BitVec.toNat_append, ← Nat.shiftLeft_add_eq_or_of_lt (BitVec.isLt _), toNat_lowHalf, Nat.shiftLeft_eq]

/-- The halves of a 64-bit register after a write of its low word (20_memory.md R89). -/
theorem withLo_halves (x : Word64) (v : Word32) :
    (withLo x v).toNat % 2 ^ 32 = v.toNat ∧ (withLo x v).toNat / 2 ^ 32 = x.toNat / 2 ^ 32 := by
  have hv := v.isLt
  rw [toNat_withLo]
  omega

/-- The halves of a 64-bit register after a write of its high word (20_memory.md R89). -/
theorem withHi_halves (x : Word64) (v : Word32) :
    (withHi x v).toNat / 2 ^ 32 = v.toNat ∧ (withHi x v).toNat % 2 ^ 32 = x.toNat % 2 ^ 32 := by
  rw [toNat_withHi]
  omega

/-- Settles O55: each half by `withLo` or `withHi`. -/
theorem argumentHalves : Obligations.ArgumentHalves := by
  intro s v rest
  exact ⟨fun h => ⟨_, step_write_reg h rfl nofun, withLo_halves s.arg0 v⟩,
    fun h => ⟨_, step_write_reg h rfl nofun, withHi_halves s.arg0 v⟩,
    fun h => ⟨_, step_write_reg h rfl nofun, withLo_halves s.arg1 v⟩,
    fun h => ⟨_, step_write_reg h rfl nofun, withHi_halves s.arg1 v⟩⟩

/-- Settles O56: the two branches of an ILEN write. -/
theorem ilenWriteAnyReadLegal : Obligations.IlenWriteAnyReadLegal := by
  intro s v rest h
  have hstep := step_write_reg h rfl nofun
  exact ⟨fun hle => hstep.trans (congrArg _ (if_pos hle)), fun hlt => hstep.trans (congrArg _ (if_neg hlt.not_ge))⟩

theorem legalBsel_iff (nbs v : Nat) : legalBsel nbs v = true ↔ v < nbs ∨ v = 16 ∨ v = 17 := by
  simp [legalBsel, or_assoc]

/-- Settles O57: a legal value fits the five bits of BSEL. -/
theorem bselWriteAnyReadLegal : Obligations.BselWriteAnyReadLegal := by
  intro s v rest hp h
  have hnbs : s.params.nbs ≤ 16 := hp.2.1
  have hstep := step_write_reg h rfl nofun
  refine ⟨fun hv => ⟨v.setWidth 5, ?_, ?_⟩, fun hv => ?_⟩
  · rw [BitVec.toNat_setWidth, Nat.mod_eq_of_lt (by omega)]
  · exact hstep.trans (congrArg _ (if_pos ((legalBsel_iff _ _).2 hv)))
  · exact hstep.trans (congrArg _ (if_neg (mt (legalBsel_iff _ _).1 hv)))

end Sys2Proof.Machine
end

/-! # The byte window -/

section
namespace Sys2Proof.Machine

/-- BSEL names a bit-string register (20_memory.md R94, R95). -/
theorem selected_eq {s : State} {r : RegIdx} (h : s.bsel.toNat = r.toNat) : s.selected = s.bs r := by
  have hr : s.bsel.setWidth 4 = r := BitVec.eq_of_toNat_eq (by
    rw [BitVec.toNat_setWidth, h, Nat.mod_eq_of_lt r.isLt])
  rw [State.selected, hr]

/-- A read of BDATA past the end of the buffer answers 0 (20_memory.md R95). -/
theorem readBdata_past {s : State} (h : s.buflen ≤ s.baddr.toNat) :
    readBdata s = .next (s.bumpBaddr.answer 0) := if_pos h

theorem readBdata_bitString {s : State} {r : RegIdx} (hr : s.bsel.toNat = r.toNat) (hlt : r.toNat < s.params.nbs) :
    readBdata s = .next (s.bumpBaddr.answer (byteWord ((s.bs r).val.getD s.baddr.toNat 0))) := by
  have hlen : s.buflen = (s.bs r).val.length := by rw [State.buflen, if_pos (hr ▸ hlt), selected_eq hr]; rfl
  by_cases hi : (s.bs r).val.length ≤ s.baddr.toNat
  · rw [readBdata_past (hlen ▸ hi), List.getD_eq_default _ _ hi]
    rfl
  · simp only [readBdata]
    rw [if_neg (hlen ▸ hi), if_pos (hr ▸ hlt), selected_eq hr]

theorem readBdata_obuf {s : State} (hb : s.bsel.toNat = 17) (hn : s.params.nbs ≤ 16) :
    readBdata s = .next (s.bumpBaddr.answer (byteWord (s.obuf.getD s.baddr.toNat 0))) := by
  have hnbs : ¬ s.bsel.toNat < s.params.nbs := by omega
  have hlen : s.buflen = s.obuf.length := by
    rw [State.buflen, if_neg hnbs, if_neg (by omega), if_pos hb, State.olen]
  by_cases hi : s.obuf.length ≤ s.baddr.toNat
  · rw [readBdata_past (hlen ▸ hi), List.getD_eq_default _ _ hi]
    rfl
  · simp only [readBdata]
    rw [if_neg (hlen ▸ hi), if_neg hnbs, if_pos hb]

section
variable {s : State} (hb : s.bsel.toNat = 16) (hn : s.params.nbs ≤ 16)
include hb hn

theorem buflen_ibuf : s.buflen = s.params.vmax := by
  rw [State.buflen, if_neg (by omega), if_pos hb]

theorem readBdata_ibuf_written (hi : s.baddr.toNat < s.params.vmax) {x : Byte}
    (hx : s.ibuf.read s.baddr.toNat = some x) :
    readBdata s = .next (s.bumpBaddr.answer (byteWord x)) := by
  simp only [readBdata, buflen_ibuf hb hn]
  rw [if_neg (by omega), if_neg (by omega), if_neg (by omega), hx]

theorem readBdata_ibuf_unwritten (hi : s.baddr.toNat < s.params.vmax) (hx : s.ibuf.read s.baddr.toNat = none) :
    readBdata s = .fault .uninitHostRead := by
  simp only [readBdata, buflen_ibuf hb hn]
  rw [if_neg (by omega), if_neg (by omega), if_neg (by omega), hx]

end

/-- Settles O58: one clause a buffer. -/
theorem byteWindowRead : Obligations.ByteWindowRead := by
  intro s rest hp h
  have hn : s.params.nbs ≤ 16 := hp.2.1
  have hstep : step s = readBdata { s with host := rest } := (step_read h).trans (memRead_bdata _)
  refine ⟨fun r hr hlt => ?_, fun hb => ?_, fun hb hi => ?_, fun x hb hi hx => ?_, fun hb hi hx => ?_⟩
  · exact hstep.trans (readBdata_bitString hr hlt)
  · exact hstep.trans (readBdata_obuf hb hn)
  · exact hstep.trans (readBdata_past ((buflen_ibuf hb hn).trans_le hi))
  · exact hstep.trans (readBdata_ibuf_written (s := { s with host := rest }) hb hn hi hx)
  · exact hstep.trans (readBdata_ibuf_unwritten (s := { s with host := rest }) hb hn hi hx)

/-- Settles O59: by whether BSEL and BADDR name a cell of IBUF. -/
theorem byteWindowWrite : Obligations.ByteWindowWrite := by
  intro s v rest h
  have hstep := step_write_reg h rfl nofun
  have hbyte : v.extractLsb' 0 8 = BitVec.ofNat 8 (v.toNat % 256) := BitVec.eq_of_toNat_eq (by simp)
  by_cases hw : s.bsel.toNat = 16 ∧ s.baddr.toNat < s.params.vmax
  · refine ⟨s.ibuf.write s.baddr.toNat (v.extractLsb' 0 8), hstep.trans (congrArg _ (if_pos hw)),
      fun a ha => Memory.read_write_ne _ _ _ _ ha, fun _ _ => ?_, fun hnot => absurd hw hnot⟩
    rw [Memory.read_write_same, hbyte]
  · exact ⟨s.ibuf, hstep.trans (congrArg _ (if_neg hw)), fun _ _ => rfl,
      fun hb hi => absurd ⟨hb, hi⟩ hw, fun _ => rfl⟩

end Sys2Proof.Machine
end

/-! # CMD writes and misaligned accesses -/

section
namespace Sys2Proof.Machine

/-- A legal word on a block that is not faulted runs its command (30_encoding.md R126). -/
theorem runCommand_of_decode {s : State} {w : Word32} {i : Instr} (hf : s.status.fault = false)
    (hd : decode w = .ok i) (hw : i.wellFormed s.params.nbs = true) : runCommand w s = exec i s := by
  simp [runCommand, hf, hd, hw]

/-- Settles O7: a write of CMD is `runCommand`. -/
theorem stepRunsDecodedCommand : Obligations.StepRunsDecodedCommand := by
  intro s w i rest h hf hd hw
  rw [step_write h, memWrite_cmd]
  exact runCommand_of_decode hf hd hw

/-- Settles O15: neither a read nor a write has a step there. -/
theorem misalignedAccessRefused : Obligations.MisalignedAccessRefused := by
  intro s a v rest ha
  exact ⟨fun h => (step_read h).trans (memRead_misaligned ha),
    fun h => (step_write h).trans (memWrite_misaligned ha)⟩

end Sys2Proof.Machine
end

/-! # The decoder and the encoder

`HasFields` says of a word and a command what `Laws.Encoding.Statement` says of the command's own word. The
decoder answers a command exactly for the words that have its fields, and the fields fix the word. -/

section
namespace Sys2Proof.Machine

open Laws.Encoding (opcode commandWord_fields)

/-- The word `w` is laid out as a word of the command `i` (30_encoding.md R120, R124, R127). -/
def HasFields (w : Word32) (i : Instr) : Prop :=
  fieldZero w = 0 ∧ fieldOpc w = opcode i ∧ fieldRd w = i.rd?.getD 0 ∧ fieldRs w = i.rs?.getD 0

/-- A command's word has its fields. -/
theorem hasFields_encode (i : Instr) : HasFields (encode i) i := by
  cases i with
  | loadbs rd => exact Laws.Encoding.loadbs rd
  | nullbs rd => exact Laws.Encoding.nullbs rd
  | newbs rd => exact Laws.Encoding.newbs rd
  | u2b => exact Laws.Encoding.u2b
  | updv rs => exact Laws.Encoding.updv rs
  | trunc rs => exact Laws.Encoding.trunc rs
  | getbit rs => exact Laws.Encoding.getbit rs
  | maxbit rs => exact Laws.Encoding.maxbit rs
  | touint rs => exact Laws.Encoding.touint rs
  | fromuint rs => exact Laws.Encoding.fromuint rs
  | adduint rs => exact Laws.Encoding.adduint rs
  | subbs rd rs => exact Laws.Encoding.subbs rd rs

/-! ## The fields as numbers -/

theorem toNat_fieldOpc (w : Word32) : (fieldOpc w).toNat = w.toNat % 256 := by simp [fieldOpc]

theorem toNat_fieldRd (w : Word32) : (fieldRd w).toNat = w.toNat / 2 ^ 8 % 16 := by
  simp [fieldRd, Nat.shiftRight_eq_div_pow]

theorem toNat_fieldRs (w : Word32) : (fieldRs w).toNat = w.toNat / 2 ^ 12 % 16 := by
  simp [fieldRs, Nat.shiftRight_eq_div_pow]

theorem toNat_fieldZero (w : Word32) : (fieldZero w).toNat = w.toNat / 2 ^ 16 := by
  have hw := w.isLt
  simp only [fieldZero, BitVec.extractLsb'_toNat, Nat.shiftRight_eq_div_pow]
  omega

/-- The four fields are the whole word (30_encoding.md R120). -/
theorem word_eq_of_fields {v w : Word32} (hz : fieldZero v = fieldZero w) (ho : fieldOpc v = fieldOpc w)
    (hd : fieldRd v = fieldRd w) (hs : fieldRs v = fieldRs w) : v = w := by
  have hz := congrArg BitVec.toNat hz
  have ho := congrArg BitVec.toNat ho
  have hd := congrArg BitVec.toNat hd
  have hs := congrArg BitVec.toNat hs
  simp only [toNat_fieldZero, toNat_fieldOpc, toNat_fieldRd, toNat_fieldRs] at hz ho hd hs
  apply BitVec.eq_of_toNat_eq
  omega

/-- Two words with the fields of one command are one word. -/
theorem HasFields.word_unique {v w : Word32} {i : Instr} (hv : HasFields v i) (hw : HasFields w i) : v = w := by
  obtain ⟨hz, ho, hd, hs⟩ := hv
  obtain ⟨hz', ho', hd', hs'⟩ := hw
  exact word_eq_of_fields (hz.trans hz'.symm) (ho.trans ho'.symm) (hd.trans hd'.symm) (hs.trans hs'.symm)

/-- A command's word as a number (30_encoding.md R131). -/
theorem toNat_commandWord (rs rd : RegIdx) (opc : BitVec 8) :
    (commandWord rs rd opc).toNat = opc.toNat + rd.toNat * 0x100 + rs.toNat * 0x1000 := by
  obtain ⟨hz, ho, hd, hs⟩ := commandWord_fields rs rd opc
  have hz : (commandWord rs rd opc).toNat / 2 ^ 16 = 0 := (toNat_fieldZero _).symm.trans (by rw [hz]; rfl)
  have ho := (toNat_fieldOpc _).symm.trans (congrArg BitVec.toNat ho)
  have hd := (toNat_fieldRd _).symm.trans (congrArg BitVec.toNat hd)
  have hs := (toNat_fieldRs _).symm.trans (congrArg BitVec.toNat hs)
  omega

/-! ## What the decoder answers -/

theorem onlyRd_eq_ok {w : Word32} {make : RegIdx → Instr} {i : Instr} (h : onlyRd w make = .ok i) :
    i = make (fieldRd w) ∧ fieldRs w = 0 := by
  unfold onlyRd at h
  split at h
  · exact ⟨(Except.ok.inj h).symm, ‹_›⟩
  · cases h

theorem onlyRs_eq_ok {w : Word32} {make : RegIdx → Instr} {i : Instr} (h : onlyRs w make = .ok i) :
    i = make (fieldRs w) ∧ fieldRd w = 0 := by
  unfold onlyRs at h
  split at h
  · exact ⟨(Except.ok.inj h).symm, ‹_›⟩
  · cases h

/-- A word that the opcode map reads as a command has the command's opcode and register fields. -/
theorem fields_of_decodeOpcode {w : Word32} {i : Instr} (h : decodeOpcode w = .ok i) :
    fieldOpc w = opcode i ∧ fieldRd w = i.rd?.getD 0 ∧ fieldRs w = i.rs?.getD 0 := by
  unfold decodeOpcode at h
  split at h
  case h_1 ho | h_2 ho | h_3 ho =>
    obtain ⟨rfl, hs⟩ := onlyRd_eq_ok h
    exact ⟨BitVec.eq_of_toNat_eq ho, rfl, hs⟩
  case h_4 ho =>
    split at h
    · split at h
      · cases h
        exact ⟨BitVec.eq_of_toNat_eq ho, ‹_›, ‹_›⟩
      · cases h
    · cases h
  case h_12 ho =>
    cases h
    exact ⟨BitVec.eq_of_toNat_eq ho, rfl, rfl⟩
  case h_13 => cases h
  all_goals
    obtain ⟨rfl, hd⟩ := onlyRs_eq_ok h
    exact ⟨BitVec.eq_of_toNat_eq ‹_›, hd, rfl⟩

/-- The opcode map reads a word with a command's opcode and register fields as that command. -/
theorem decodeOpcode_of_fields {w : Word32} {i : Instr} (ho : fieldOpc w = opcode i)
    (hd : fieldRd w = i.rd?.getD 0) (hs : fieldRs w = i.rs?.getD 0) : decodeOpcode w = .ok i := by
  unfold decodeOpcode
  rw [ho]
  cases i with
  | loadbs rd | nullbs rd | newbs rd => exact (if_pos hs).trans (congrArg _ (congrArg _ hd))
  | u2b => exact (if_pos hd).trans (if_pos hs)
  | subbs rd rs => exact congrArg _ (congrArg₂ _ hd hs)
  | _ => exact (if_pos hd).trans (congrArg _ (congrArg _ hs))

/-- The decoder answers a command exactly for the words laid out as words of it. -/
theorem decode_eq_ok_iff {w : Word32} {i : Instr} : decode w = .ok i ↔ HasFields w i := by
  unfold decode HasFields
  constructor
  · intro h
    split at h
    · exact ⟨‹_›, fields_of_decodeOpcode h⟩
    · cases h
  · rintro ⟨hz, ho, hd, hs⟩
    rw [if_pos hz, decodeOpcode_of_fields ho hd hs]

/-- Settles O1: a command's word has its fields. -/
theorem decodeInvertsEncode : Obligations.DecodeInvertsEncode :=
  fun i => decode_eq_ok_iff.2 (hasFields_encode i)

/-- Settles O2: the word and the command's own word have the same fields. -/
theorem encodeInvertsDecode : Obligations.EncodeInvertsDecode :=
  fun _ i h => (hasFields_encode i).word_unique (decode_eq_ok_iff.1 h)

/-- Settles O3: each word is a `commandWord` whose unused fields are 0. -/
theorem commandWords : Obligations.CommandWords := by
  simp [Obligations.CommandWords, encode, toNat_commandWord]

/-- Settles O4: each sample is the word of its command. -/
theorem sampleWordsDecode : Obligations.SampleWordsDecode :=
  ⟨decodeInvertsEncode (.loadbs 3), decodeInvertsEncode (.nullbs 2), decodeInvertsEncode (.newbs 1),
    decodeInvertsEncode .u2b, decodeInvertsEncode (.updv 1), decodeInvertsEncode (.trunc 1),
    decodeInvertsEncode (.getbit 3), decodeInvertsEncode (.maxbit 0), decodeInvertsEncode (.touint 2),
    decodeInvertsEncode (.fromuint 1), decodeInvertsEncode (.adduint 1), decodeInvertsEncode (.subbs 1 2)⟩

end Sys2Proof.Machine
end

/-! # Illegal words (30_encoding.md R126, R127) -/

section
namespace Sys2Proof.Machine

open Laws.Encoding (opcode)

/-- The rule's list of the opcodes that use `rd` is that of the commands with the field (30_encoding.md R124). -/
theorem opcUsesRd_opcode (i : Instr) : opcUsesRd (opcode i).toNat = i.rd?.isSome := by
  cases i <;> rfl

/-- The rule's list of the opcodes that use `rs` is that of the commands with the field (30_encoding.md R124). -/
theorem opcUsesRs_opcode (i : Instr) : opcUsesRs (opcode i).toNat = i.rs?.isSome := by
  cases i <;> rfl

theorem opcode_range (i : Instr) : (opcode i).toNat ≠ 0 ∧ (opcode i).toNat < 0x0D := by
  cases i <;> simp [opcode]

/-- The conditions of 30_encoding.md R127 that do not depend on NBS, on the fields: what a legal word meets. -/
def FieldsLegal (w : Word32) : Prop :=
  fieldZero w = 0 ∧ (fieldOpc w).toNat ≠ 0 ∧ (fieldOpc w).toNat < 0x0D ∧
  (opcUsesRd (fieldOpc w).toNat = false → fieldRd w = 0) ∧
  (opcUsesRs (fieldOpc w).toNat = false → fieldRs w = 0)

/-- The conditions of 30_encoding.md R127 that depend on NBS: each register field the opcode uses exists. -/
def RegsExist (nbs : Nat) (w : Word32) : Prop :=
  (opcUsesRd (fieldOpc w).toNat = true → (fieldRd w).toNat < nbs) ∧
  (opcUsesRs (fieldOpc w).toNat = true → (fieldRs w).toNat < nbs)

/-- R127's conditions on the number are those on its fields. -/
theorem wordIllegal_iff (nbs : Nat) (w : Word32) :
    WordIllegal nbs w.toNat ↔ ¬ (FieldsLegal w ∧ RegsExist nbs w) := by
  have hz : fieldZero w = 0 ↔ w.toNat / 2 ^ 16 = 0 := by rw [← toNat_fieldZero]; exact BitVec.toNat_inj.symm
  have hd : fieldRd w = 0 ↔ w.toNat / 2 ^ 8 % 16 = 0 := by rw [← toNat_fieldRd]; exact BitVec.toNat_inj.symm
  have hs : fieldRs w = 0 ↔ w.toNat / 2 ^ 12 % 16 = 0 := by rw [← toNat_fieldRs]; exact BitVec.toNat_inj.symm
  simp only [WordIllegal, FieldsLegal, RegsExist, hz, hd, hs, toNat_fieldOpc, toNat_fieldRd, toNat_fieldRs]
  grind

/-- Some command has the opcode and the register fields of a word that is legal but for NBS. -/
theorem FieldsLegal.exists_hasFields {w : Word32} (h : FieldsLegal w) : ∃ i, HasFields w i := by
  obtain ⟨hz, h0, hlt, hd, hs⟩ := h
  obtain ⟨o, ho⟩ : ∃ o, (fieldOpc w).toNat = o := ⟨_, rfl⟩
  have hopc : ∀ {p : BitVec 8}, o = p.toNat → fieldOpc w = p := fun e => BitVec.eq_of_toNat_eq (ho.trans e)
  rw [ho] at h0 hlt hd hs
  interval_cases o
  · exact absurd rfl h0
  · exact ⟨.loadbs (fieldRd w), hz, hopc rfl, rfl, hs rfl⟩
  · exact ⟨.nullbs (fieldRd w), hz, hopc rfl, rfl, hs rfl⟩
  · exact ⟨.newbs (fieldRd w), hz, hopc rfl, rfl, hs rfl⟩
  · exact ⟨.u2b, hz, hopc rfl, hd rfl, hs rfl⟩
  · exact ⟨.updv (fieldRs w), hz, hopc rfl, hd rfl, rfl⟩
  · exact ⟨.trunc (fieldRs w), hz, hopc rfl, hd rfl, rfl⟩
  · exact ⟨.getbit (fieldRs w), hz, hopc rfl, hd rfl, rfl⟩
  · exact ⟨.maxbit (fieldRs w), hz, hopc rfl, hd rfl, rfl⟩
  · exact ⟨.touint (fieldRs w), hz, hopc rfl, hd rfl, rfl⟩
  · exact ⟨.fromuint (fieldRs w), hz, hopc rfl, hd rfl, rfl⟩
  · exact ⟨.adduint (fieldRs w), hz, hopc rfl, hd rfl, rfl⟩
  · exact ⟨.subbs (fieldRd w) (fieldRs w), hz, hopc rfl, rfl, rfl⟩

/-- A word with a command's fields is legal but for NBS. -/
theorem HasFields.fieldsLegal {w : Word32} {i : Instr} (h : HasFields w i) : FieldsLegal w := by
  obtain ⟨hz, ho, hd, hs⟩ := h
  obtain ⟨h0, hlt⟩ := opcode_range i
  refine ⟨hz, ho ▸ h0, ho ▸ hlt, fun hu => ?_, fun hu => ?_⟩
  · rw [ho, opcUsesRd_opcode, Option.isSome_eq_false_iff, Option.isNone_iff_eq_none] at hu
    rw [hd, hu, Option.getD_none]
  · rw [ho, opcUsesRs_opcode, Option.isSome_eq_false_iff, Option.isNone_iff_eq_none] at hu
    rw [hs, hu, Option.getD_none]

/-- A register field, where a command has one, exists. -/
theorem all_exists?_iff (nbs : Nat) (f : Option RegIdx) :
    f.all (RegIdx.exists? nbs) = true ↔ (f.isSome = true → (f.getD 0).toNat < nbs) := by
  cases f <;> simp [RegIdx.exists?]

/-- A command is well formed in a block exactly when the register fields of its word exist there. -/
theorem HasFields.wellFormed_iff {w : Word32} {i : Instr} (h : HasFields w i) (nbs : Nat) :
    i.wellFormed nbs = true ↔ RegsExist nbs w := by
  obtain ⟨-, ho, hd, hs⟩ := h
  rw [RegsExist, ho, opcUsesRd_opcode, opcUsesRs_opcode, hd, hs, Instr.wellFormed, Bool.and_eq_true,
    all_exists?_iff, all_exists?_iff]

/-- Settles O5: the legal words are those with the fields of a command whose registers exist. -/
theorem illegalWordsExactly : Obligations.IllegalWordsExactly := by
  intro nbs w
  rw [wordIllegal_iff, not_iff_not]
  constructor
  · rintro ⟨hl, hr⟩
    obtain ⟨i, hi⟩ := hl.exists_hasFields
    exact ⟨i, decode_eq_ok_iff.2 hi, (hi.wellFormed_iff nbs).2 hr⟩
  · rintro ⟨i, hd, hw⟩
    have hi := decode_eq_ok_iff.1 hd
    exact ⟨hi.fieldsLegal, (hi.wellFormed_iff nbs).1 hw⟩

/-! ## Illegal words and ignored words on the bus -/

/-- A word that is no command of the block raises the ILLEGAL fault (30_encoding.md R127). -/
theorem runCommand_of_illegal {s : State} {w : Word32} (hf : s.status.fault = false)
    (hw : WordIllegal s.params.nbs w.toNat) : runCommand w s = illegalWord w s := by
  have hno := (illegalWordsExactly s.params.nbs w).1 hw
  rw [runCommand, if_neg (by simp [hf])]
  split
  · rfl
  · rename_i i hd
    exact if_neg fun hwf => hno ⟨i, hd, hwf⟩

/-- What the ILLEGAL fault leaves: INFO0 holds the whole word (30_encoding.md R127). -/
theorem illegalWord_eq (w : Word32) (s : State) : illegalWord w s = .next { s with
    status := { cause := .illegal, err := false, fault := true }, info0 := w, info1 := 0 } := by
  simp [illegalWord, raiseFault, Status.faulted]

/-- A faulted block ignores every word (30_encoding.md R128). -/
theorem runCommand_of_fault {s : State} (w : Word32) (hf : s.status.fault = true) :
    runCommand w s = .next s :=
  if_pos hf

/-- A step from a faulted state keeps STATUS, INFO0 and INFO1, or is a reset pulse (60_exceptions.md R264 (b), (d)). -/
theorem step_keeps_fault {s t : State} (h : step s = .next t) (hf : s.status.fault = true) :
    (t.status = s.status ∧ t.info0 = s.info0 ∧ t.info1 = s.info1) ∨
    ∃ rest, s.host = .resetPulse :: rest := by
  cases step_cases h with
  | reset rest hh => exact .inr ⟨rest, hh⟩
  | wrote a v rest _ ht =>
    have hk := writeReg_kept (windowReg a) v { s with host := rest, reply := some .written }
    rw [← ht] at hk
    exact .inl ⟨hk.status, hk.info0, hk.info1⟩
  | illegal _ _ _ _ hnf | command _ _ _ _ _ hnf => cases hnf.symm.trans hf
  | idle _ ht | peeked _ _ _ _ ht | byteRead _ _ _ _ _ ht | ignored _ _ _ _ _ ht =>
    subst ht
    exact .inl ⟨rfl, rfl, rfl⟩

theorem faultLeftOnlyByReset (s : State) : FaultLeftOnlyByReset s := by
  intro t h hf
  exact (step_keeps_fault h hf).imp_left fun ⟨hst, _, _⟩ => hst ▸ hf

/-- Settles O8: a write of CMD is `runCommand`, which raises the fault for an illegal word. -/
theorem illegalWordFaults : Obligations.IllegalWordFaults := by
  refine ⟨fun s w rest h hf hw => ?_, rfl, fun nbs => .inr (.inl rfl), faultLeftOnlyByReset⟩
  rw [step_write h, memWrite_cmd]
  exact (runCommand_of_illegal (s := { s with host := rest, reply := some .written }) hf hw).trans
    (illegalWord_eq w _)

/-- Settles O9: a write of CMD is `runCommand`, which a faulted block ignores. -/
theorem faultedBlockIgnoresCommands : Obligations.FaultedBlockIgnoresCommands := by
  refine ⟨fun s w rest h hf => ?_, faultLeftOnlyByReset⟩
  rw [step_write h, memWrite_cmd]
  exact runCommand_of_fault w hf

end Sys2Proof.Machine
end

/-! # The written form of commands (30_encoding.md R131) -/

section
namespace Sys2Proof.Machine

/-! ## Cutting a text into its parts -/

/-- Characters that are no separators belong to the part being read. -/
theorem textParts_append {cs : List Char} (hcs : ∀ c ∈ cs, isSeparator c = false) (part rest : List Char) :
    textParts part (cs ++ rest) = textParts (part ++ cs) rest := by
  induction cs generalizing part with
  | nil => simp
  | cons c cs ih =>
    obtain ⟨hc, hcs⟩ := List.forall_mem_cons.1 hcs
    rw [List.cons_append, textParts, hc, if_neg Bool.false_ne_true, ih hcs]
    simp

/-- A word, a part of a text: characters that are no separators, at least one. -/
def IsWord (cs : List Char) : Prop := cs ≠ [] ∧ ∀ c ∈ cs, isSeparator c = false

/-- The last word of a text. -/
theorem textParts_word {cs : List Char} (h : IsWord cs) : textParts [] cs = [cs] := by
  have happ := textParts_append h.2 [] []
  rw [List.append_nil, List.nil_append] at happ
  rw [happ, textParts, if_neg (by simpa using h.1)]

/-- A word that a separator ends. -/
theorem textParts_word_separator {cs : List Char} (h : IsWord cs) {c : Char} (hc : isSeparator c = true)
    (rest : List Char) : textParts [] (cs ++ c :: rest) = cs :: textParts [] rest := by
  rw [textParts_append h.2, List.nil_append, textParts, if_pos hc, if_neg (by simpa using h.1)]

theorem isSeparator_of_isDigit {c : Char} (h : c.isDigit = true) : isSeparator c = false := by
  have hblank : c ≠ ' ' := fun e => absurd (e ▸ h) (by decide)
  have hcomma : c ≠ ',' := fun e => absurd (e ▸ h) (by decide)
  simp [isSeparator, hblank, hcomma]

/-- A register field is one word: a letter and decimal digits. -/
theorem isWord_regText (r : RegIdx) : IsWord (regText r) :=
  ⟨List.cons_ne_nil _ _, List.forall_mem_cons.2 ⟨rfl, fun _ hc =>
    isSeparator_of_isDigit (Nat.isDigit_of_mem_toDigits (by decide) le_rfl hc)⟩⟩

theorem isWord_mnemonicText (i : Instr) : IsWord (mnemonicText i) := by
  constructor
  · cases i <;> exact List.cons_ne_nil _ _
  · cases i <;> simp [mnemonicText, isSeparator]

/-- The parts of a list of register fields are the fields. -/
theorem textParts_regListText (rs : List RegIdx) : textParts [] (regListText rs) = rs.map regText := by
  induction rs with
  | nil => rfl
  | cons r rs ih =>
    cases rs with
    | nil => exact textParts_word (isWord_regText r)
    | cons q rs =>
      have hblank : textParts [] (' ' :: regListText (q :: rs)) = textParts [] (regListText (q :: rs)) := rfl
      calc textParts [] (regListText (r :: q :: rs))
        _ = textParts [] (regText r ++ ',' :: ' ' :: regListText (q :: rs)) := by simp [regListText]
        _ = regText r :: textParts [] (' ' :: regListText (q :: rs)) :=
          textParts_word_separator (isWord_regText r) rfl _
        _ = regText r :: (q :: rs).map regText := by rw [hblank, ih]

/-- The parts of a command's written form: its mnemonic, then its register fields. -/
theorem textParts_commandText (i : Instr) :
    textParts [] (commandText i) = mnemonicText i :: (operandRegs i).map regText := by
  unfold commandText
  split
  next h => rw [h, textParts_word (isWord_mnemonicText i), List.map_nil]
  next => rw [textParts_word_separator (isWord_mnemonicText i) rfl, textParts_regListText]

/-! ## Reading the parts back -/

/-- A number is read back from its decimal digits. -/
theorem decimalValue_toDigits (n : Nat) : decimalValue (Nat.toDigits 10 n) = some n := by
  have hdigits : (Nat.toDigits 10 n).all Char.isDigit = true :=
    List.all_eq_true.2 fun c hc => Nat.isDigit_of_mem_toDigits (by decide) le_rfl hc
  have hvalue : Nat.ofDigitChars 10 (Nat.toDigits 10 n) 0 = n := Nat.ofDigitChars_toDigits (by decide) le_rfl
  unfold decimalValue
  split
  next h => exact absurd h Nat.toDigits_ne_nil
  next =>
    rw [if_pos hdigits]
    simpa [Nat.ofDigitChars, mul_comm] using hvalue

/-- A register field is read back from its text. -/
theorem parseReg_regText (r : RegIdx) : parseReg (regText r) = some r := by
  simp [parseReg, regText, decimalValue_toDigits, r.isLt]

theorem parseRegs_map_regText (rs : List RegIdx) : parseRegs (rs.map regText) = some rs := by
  induction rs with
  | nil => rfl
  | cons r rs ih => rw [List.map_cons, parseRegs, parseReg_regText, ih]

/-- A command is the first of the commands with its register fields that has its mnemonic, written in
capitals. -/
theorem find?_formsOf (i : Instr) :
    ((formsOf (operandRegs i)).find? fun j => decide ((mnemonicText i).map Char.toUpper = mnemonicText j)) =
      some i := by
  cases i <;> rfl

/-- Settles O6: the parts of the text are read back one by one. -/
theorem writtenFormAssembles : Obligations.WrittenFormAssembles := by
  intro i
  simp only [assemble, textParts_commandText, parseRegs_map_regText, find?_formsOf]

end Sys2Proof.Machine
end

/-! # LOADBS, NULLBS, NEWBS and U2B (40_construct.md) -/

section
namespace Sys2Proof.Machine

/-! ## Packed bytes -/

/-- Packing gives `n` bytes whose integer is `v mod 256^n` (00_scope.md R15). -/
theorem bytesOf_bepack (v n : Nat) : BytesOf (bepack v n) n (v % 256 ^ n) :=
  ⟨length_bepack v n, beval_bepack v n⟩

/-- A masked value is kept whole on the bytes its length needs. -/
theorem bytesOf_bepack_mask (v L : Nat) : BytesOf (bepack (mask v L) (nbytes L)) (nbytes L) (v % 2 ^ L) :=
  ⟨length_bepack _ _, beval_bepack_of_lt _ _ (mask_lt_pow256 v L)⟩

/-- Two packings on as many bytes agree exactly when the integers they keep do. -/
theorem bepack_eq_bepack_iff (v w n : Nat) : bepack v n = bepack w n ↔ v % 256 ^ n = w % 256 ^ n := by
  rw [← beval_bepack v n, ← beval_bepack w n]
  exact ⟨congrArg beval, beval_injective _ _ (by simp)⟩

/-- Masking to `L` bits changes no byte exactly when the value kept on `nbytes L` bytes is below `2^L`. -/
theorem bepack_eq_bepack_mask_iff (v L : Nat) :
    bepack v (nbytes L) = bepack (mask v L) (nbytes L) ↔ v % 2 ^ (8 * nbytes L) < 2 ^ L := by
  have hdvd : 2 ^ L ∣ 2 ^ (8 * nbytes L) := pow_dvd_pow 2 (nbytes_mul_ge L)
  rw [bepack_eq_bepack_iff, Nat.mod_eq_of_lt (mask_lt_pow256 v L), pow256]
  constructor
  · intro h
    exact h ▸ mask_lt v L
  · intro h
    calc v % 2 ^ (8 * nbytes L) = v % 2 ^ (8 * nbytes L) % 2 ^ L := (Nat.mod_eq_of_lt h).symm
      _ = mask v L := Nat.mod_mod_of_dvd v hdvd

/-! ## What each command answers -/

section
variable {s : State} {rd : RegIdx}

theorem exec_loadbs_of_candidate {xs : List Byte} (h : CandidateIs s xs) :
    exec (.loadbs rd) s = succeed (s.setBs rd { p := true, len := s.argLen, val := xs }) := by
  simp [exec, execLoadbs, (candidate_eq_some_iff s xs).2 h]

theorem exec_loadbs_of_unwritten (h : CandidateUnwritten s) : exec (.loadbs rd) s = .fault .uninitIbuf := by
  simp [exec, execLoadbs, (candidate_eq_none_iff s).2 h]

theorem exec_newbs_of_fits (h : nbytes (lenArg s) ≤ s.params.vmax) :
    exec (.newbs rd) s = succeed (s.setBs rd
      { p := true, len := s.argLen, val := bepack (mask s.arg0.toNat (lenArg s)) (nbytes (lenArg s)) }) := by
  simp [exec, execNewbs, Nat.not_lt.2 h]

theorem exec_newbs_of_exceeds (h : s.params.vmax < nbytes (lenArg s)) :
    exec (.newbs rd) s = raiseFault .capacity (nbytes (lenArg s)) s.params.vmax s := by
  simp [exec, execNewbs, h]

theorem exec_u2b_of_fits (h : nbytes (lenArg s) ≤ s.params.vmax) :
    exec .u2b s = succeed (s.setObuf (bepack (u2bValue s) (nbytes (lenArg s)))) := by
  simp [exec, execU2b, Nat.not_lt.2 h]

theorem exec_u2b_of_exceeds (h : s.params.vmax < nbytes (lenArg s)) :
    exec .u2b s = raiseFault .capacity (nbytes (lenArg s)) s.params.vmax s := by
  simp [exec, execU2b, h]

theorem exec_touint_of_fits (hp : (s.bs rd).p = true) (hw : beval (s.bs rd).val < 2 ^ 64) :
    exec (.touint rd) s = succeed (s.setRes (BitVec.ofNat 64 (beval (s.bs rd).val))) :=
  (if_neg (by simp [hp])).trans (if_neg (Nat.not_le.2 hw))

theorem u2bValue_of_mask (h : s.params.u2bMask = true) : u2bValue s = mask s.arg0.toNat (lenArg s) := by
  simp [u2bValue, h]

theorem u2bValue_of_not_mask (h : s.params.u2bMask = false) : u2bValue s = s.arg0.toNat := by
  simp [u2bValue, h]

/-- A command that ends in a write of B[rd] succeeds, with an effect that holds of every state with that
register as written and every other register, RES and OBUF as before. -/
theorem Succeeds.of_setBs {i : Instr} {b : BitString} {effect : State → Prop}
    (h : exec i s = succeed (s.setBs rd b))
    (he : ∀ t : State, t.bs rd = b → BankKeptBut rd s t → t.res = s.res → t.obuf = s.obuf → effect t) :
    Succeeds i s effect :=
  .of_succeed h (.setBs s rd b) rfl fun t hb hr ho =>
    he t ((State.bs_congr hb rd).trans (State.bs_setBs_same s rd b))
      (fun q hq => (State.bs_congr hb q).trans (State.bs_setBs_ne s rd q b hq)) hr ho

/-- A NEWBS that succeeds leaves B[rd] present, with the integer `value mod 2^len` (40_construct.md R157). -/
theorem exec_newbs_ok {t : State} (h : exec (.newbs rd) s = .next t) (hc : t.status.cause = .ok) :
    (t.bs rd).p = true ∧ (t.bs rd).val = bepack (mask s.arg0.toNat (lenArg s)) (nbytes (lenArg s)) := by
  obtain ⟨u, hu, ht⟩ := exec_ok h hc
  cases hu
  cases ht
  change ((s.setBs rd _).bs rd).p = true ∧ ((s.setBs rd _).bs rd).val = _
  simp

/-- A U2B that succeeds leaves its packed value in OBUF (40_construct.md R160). -/
theorem exec_u2b_ok {t : State} (h : exec .u2b s = .next t) (hc : t.status.cause = .ok) :
    t.obuf = bepack (u2bValue s) (nbytes (lenArg s)) := by
  obtain ⟨u, hu, ht⟩ := exec_ok h hc
  cases hu
  cases ht
  exact congrArg (bepack _ <| nbytes ·) (argLen_toNat s)

end

/-- The words that decode to a command, as numbers: its own word and no other (30_encoding.md R129, R131). -/
theorem decode_eq_ok_iff_toNat {w : Word32} {i : Instr} : decode w = .ok i ↔ w.toNat = (encode i).toNat := by
  constructor
  · intro h
    rw [encodeInvertsDecode w i h]
  · intro h
    rw [BitVec.eq_of_toNat_eq h]
    exact decodeInvertsEncode i

/-! ## The statements -/

/-- Settles O25: the candidate sequence has a value exactly when every cell is written. -/
theorem loadbsOperation : Obligations.LoadbsOperation := by
  intro s rd
  refine ⟨fun xs hx => ?_, exec_loadbs_of_unwritten⟩
  refine .of_setBs (exec_loadbs_of_candidate hx) fun t hb hk hr ho => ?_
  rw [hb]
  exact ⟨rfl, argLen_toNat s, rfl, hk, hr, ho⟩

/-- Settles O26: the word by the encoder's table, the effect by the register write. -/
theorem nullbsOperation : Obligations.NullbsOperation := by
  intro rd
  constructor
  · intro w
    rw [decode_eq_ok_iff_toNat, encode, toNat_commandWord]
    rfl
  · intro s
    exact .of_setBs rfl fun t hb hk hr ho => ⟨hb, hk, hr, ho⟩

/-- Settles O27: the masked value is kept whole on `nbytes(len)` bytes. -/
theorem newbsOperation : Obligations.NewbsOperation := by
  intro s rd
  constructor
  · intro hfit
    refine .of_setBs (exec_newbs_of_fits hfit) fun t hb hk hr ho => ?_
    rw [hb]
    exact ⟨rfl, argLen_toNat s, bytesOf_bepack_mask s.arg0.toNat (lenArg s), hk, hr, ho⟩
  · intro hexceeds
    exact .of_raiseFault (exec_newbs_of_exceeds hexceeds)

/-- Settles O28: OBUF is the packing of the value that each setting of U2B_MASK hands on. -/
theorem u2bOperation : Obligations.U2bOperation := by
  constructor
  · intro w
    rw [decode_eq_ok_iff_toNat]
    exact BitVec.toNat_inj
  intro s
  constructor
  · intro hfit
    refine .of_succeed (exec_u2b_of_fits hfit) (.setObuf s _) rfl fun t hb hr ho => ?_
    rw [ho, State.obuf_setObuf]
    refine ⟨fun hm => ?_, fun hm => ?_, State.bs_congr hb, hr⟩
    · rw [u2bValue_of_mask hm]
      exact bytesOf_bepack_mask _ _
    · rw [u2bValue_of_not_mask hm]
      exact bytesOf_bepack _ _
  · intro hexceeds
    exact .of_raiseFault (exec_u2b_of_exceeds hexceeds)

/-- Settles O29: both results are packings on `nbytes(len)` bytes, of the masked value by NEWBS and, by U2B, of the
value that U2B_MASK selects. -/
theorem u2bAgainstNewbs : Obligations.U2bAgainstNewbs := by
  intro s t u rd ht hu hct hcu
  rw [exec_u2b_ok ht hct, (exec_newbs_ok hu hcu).2]
  constructor
  · intro hm
    rw [u2bValue_of_mask hm]
  · intro hm
    rw [u2bValue_of_not_mask hm]
    exact bepack_eq_bepack_mask_iff _ _

/-- Settles O40: the fold of the bytes NEWBS stores is `value mod 2^len`, which is at most the 64-bit value. -/
theorem newbsTouintRoundTrip : Obligations.NewbsTouintRoundTrip := by
  intro s t rd h hc
  obtain ⟨hp, hval⟩ := exec_newbs_ok h hc
  have hfold : beval (t.bs rd).val = s.arg0.toNat % 2 ^ lenArg s := by
    rw [hval]
    exact (bytesOf_bepack_mask _ _).2
  have hlt : beval (t.bs rd).val < 2 ^ 64 := by
    rw [hfold]
    exact (Nat.mod_le _ _).trans_lt s.arg0.isLt
  refine .of_succeed (exec_touint_of_fits hp hlt) (.setRes t _) rfl fun v _ hr _ => ?_
  have hres : v.res.toNat = s.arg0.toNat % 2 ^ lenArg s := by
    rw [hr, State.res_setRes, BitVec.toNat_ofNat, Nat.mod_eq_of_lt hlt, hfold]
  have hkept (hv : s.arg0.toNat < 2 ^ lenArg s) : v.res = s.arg0 :=
    BitVec.eq_of_toNat_eq (hres.trans (Nat.mod_eq_of_lt hv))
  exact ⟨hres, hkept, fun hL => hkept (s.arg0.isLt.trans_le (Nat.pow_le_pow_right (by decide) hL))⟩

end Sys2Proof.Machine
end

/-! # UPDV and TRUNC (41_update.md) -/

section
namespace Sys2Proof.Machine

/-! ## The truncated bytes -/

/-- TRUNC masks the last byte and no other (41_update.md R177). -/
theorem truncBytes_concat {front : List Byte} {L : Nat} (last : Byte) (hlen : (front ++ [last]).length = nbytes L) :
    truncBytes (front ++ [last]) L = front ++ [last &&& keepMask (trailingBits L)] := by
  have hlast : nbytes L - 1 = front.length := by simp [← hlen]
  simp [truncBytes, hlast, List.modify_eq_take_drop]

/-- The same mask twice clears no further bit (41_update.md R179 (c)). -/
theorem truncBytes_truncBytes (xs : List Byte) (L : Nat) :
    truncBytes (truncBytes xs L) L = truncBytes xs L := by
  have hmask (m : Byte) : (fun x : Byte => x &&& m) ∘ (fun x => x &&& m) = fun x => x &&& m :=
    funext fun x => by simp [BitVec.and_assoc]
  simp only [truncBytes, List.modify_modify_eq, hmask]

/-! ## What each command answers -/

section
variable {s : State} {rs : RegIdx}

theorem exec_updv_of_null (hp : (s.bs rs).p = false) :
    exec (.updv rs) s = invalidArgument .null rs.toNat 0 (s.setObuf []) :=
  if_pos hp

theorem exec_updv_of_length (hp : (s.bs rs).p = true) (hl : s.ilen.toNat ≠ nbytes (s.bs rs).len.toNat) :
    exec (.updv rs) s =
      invalidArgument .length s.ilen.toNat (nbytes (s.bs rs).len.toNat) (s.setObuf (s.bs rs).val) := by
  simp [exec, execUpdv, hp, hl]

theorem exec_updv_of_candidate {xs : List Byte} (hp : (s.bs rs).p = true)
    (hl : s.ilen.toNat = nbytes (s.bs rs).len.toNat) (hx : CandidateIs s xs) :
    exec (.updv rs) s = succeed ((s.setVal rs xs).setObuf xs) := by
  simp [exec, execUpdv, hp, hl, (candidate_eq_some_iff s xs).2 hx]

theorem exec_updv_of_unwritten (hp : (s.bs rs).p = true)
    (hl : s.ilen.toNat = nbytes (s.bs rs).len.toNat) (hx : CandidateUnwritten s) :
    exec (.updv rs) s = .fault .uninitIbuf := by
  simp [exec, execUpdv, hp, hl, (candidate_eq_none_iff s).2 hx]

theorem exec_trunc_of_null (hp : (s.bs rs).p = false) :
    exec (.trunc rs) s = invalidArgument .null rs.toNat 0 (s.setObuf []) :=
  if_pos hp

theorem exec_trunc_of_zeroLen (hp : (s.bs rs).p = true) (h0 : (s.bs rs).len = 0) :
    exec (.trunc rs) s = invalidArgument .zeroLen 0 0 (s.setObuf []) := by
  simp [exec, execTrunc, hp, h0]

theorem exec_trunc_of_not_I1 (hp : (s.bs rs).p = true) (h0 : (s.bs rs).len ≠ 0) (hl : ¬ (s.bs rs).I1) :
    exec (.trunc rs) s =
      invalidArgument .length (s.bs rs).vlen (nbytes (s.bs rs).len.toNat) (s.setObuf []) :=
  (if_neg (by simp [hp])).trans ((if_neg h0).trans (if_pos hl))

theorem exec_trunc_of_I1 (hp : (s.bs rs).p = true) (h0 : (s.bs rs).len ≠ 0) (hl : (s.bs rs).I1) :
    exec (.trunc rs) s = succeed ((s.setVal rs (truncBytes (s.bs rs).val (s.bs rs).len.toNat)).setObuf
      (truncBytes (s.bs rs).val (s.bs rs).len.toNat)) :=
  (if_neg (by simp [hp])).trans ((if_neg h0).trans (if_neg (not_not.2 hl)))

/-- A command that rejects its argument after a write of OBUF alone leaves those bytes there. -/
theorem RejectsArgument.of_setObuf {i : Instr} {c : Cause} {i0 i1 : Nat} {xs : List Byte}
    (h : exec i s = invalidArgument c i0 i1 (s.setObuf xs)) :
    RejectsArgument i s c (BitVec.ofNat 32 i0) (BitVec.ofNat 32 i1) fun t => t.obuf = xs ∧ t.res = s.res :=
  .of_invalidArgument h (.setObuf s xs) rfl rfl fun _ hr ho => ⟨ho, hr⟩

/-- A command that ends in a write of the same bytes to B[rs].VAL and OBUF succeeds, with an effect that holds
of every state with P and LEN of that register, every other register and RES as before. -/
theorem Succeeds.of_replaced {i : Instr} {xs : List Byte} {effect : State → Prop}
    (h : exec i s = succeed ((s.setVal rs xs).setObuf xs))
    (he : ∀ t : State, t.bs rs = { s.bs rs with val := xs } → t.obuf = xs → BankKeptBut rs s t →
      t.res = s.res → effect t) :
    Succeeds i s effect :=
  .of_succeed h ((InputsKept.setVal s rs xs).trans (.setObuf _ xs)) rfl fun t hb hr ho =>
    he t ((State.bs_congr hb rs).trans (State.bs_setVal_same s rs xs)) ho
      (fun q hq => (State.bs_congr hb q).trans (State.bs_setVal_ne s rs q xs hq)) hr

/-- A TRUNC that succeeds met a present register with LEN not 0 and I1, and leaves the truncated bytes in it and
in OBUF (41_update.md R177). -/
theorem exec_trunc_ok {t : State} (h : exec (.trunc rs) s = .next t) (hc : t.status.cause = .ok) :
    (s.bs rs).p = true ∧ (s.bs rs).len ≠ 0 ∧ (s.bs rs).I1 ∧
      t.bs rs = { s.bs rs with val := truncBytes (s.bs rs).val (s.bs rs).len.toNat } ∧
      t.obuf = truncBytes (s.bs rs).val (s.bs rs).len.toNat := by
  obtain ⟨u, hu, ht⟩ := exec_ok h hc
  cases ht
  cases hu with
  | trunc _ hp h0 hl => exact ⟨hp, h0, hl, State.bs_setVal_same s rs _, rfl⟩

end

/-! ## The statements -/

/-- Settles O30: one clause for each branch of the command. -/
theorem updvOperation : Obligations.UpdvOperation := by
  intro s rs
  refine ⟨fun hp => ?null, fun hp hl => ?length, fun xs hp hl hx => ?replaced, exec_updv_of_unwritten⟩
  case null => exact .of_setObuf (exec_updv_of_null hp)
  case length =>
    have h := RejectsArgument.of_setObuf (exec_updv_of_length hp hl)
    rw [BitVec.ofNat_toNat, BitVec.setWidth_eq] at h
    exact h
  case replaced =>
    exact .of_replaced (exec_updv_of_candidate hp hl hx) fun t hb ho hk hr =>
      ⟨hb.trans (congrArg (BitString.mk · _ xs) hp), ho, hk, hr⟩

/-- Settles O31: the mask on the last byte subtracts its remainder modulo 2^t. -/
theorem truncOperation : Obligations.TruncOperation := by
  intro s rs
  refine ⟨fun hp => ?null, fun hp h0 => ?zeroLen, fun hp h0 hl => ?length, fun front last hp h0 hl hv => ?cleared⟩
  case null => exact .of_setObuf (exec_trunc_of_null hp)
  case zeroLen => exact .of_setObuf (exec_trunc_of_zeroLen hp h0)
  case length => exact .of_setObuf (exec_trunc_of_not_I1 hp h0 hl)
  case cleared =>
    refine .of_replaced (exec_trunc_of_I1 hp h0 hl) fun t hb ho hk hr => ?_
    have hbytes := truncBytes_concat last (hv ▸ hl)
    rw [hv, hbytes] at hb ho
    rw [hb]
    exact ⟨hp, rfl, ⟨_, rfl, toNat_and_keepMask last _ (trailingBits_lt _)⟩, ho, hk, hr⟩

/-- Settles O41: the first TRUNC keeps P, LEN and the byte count, so the second passes the same checks, and the
same mask twice is the mask once. -/
theorem truncIdempotent : Obligations.TruncIdempotent := by
  intro s t rs h hc
  obtain ⟨hp, h0, hl, hb, ho⟩ := exec_trunc_ok h hc
  have hl' : (t.bs rs).I1 := by
    rw [hb]
    exact (length_truncBytes _ _).trans hl
  have hsame : truncBytes (t.bs rs).val (t.bs rs).len.toNat = (t.bs rs).val := by
    rw [hb]
    exact truncBytes_truncBytes _ _
  refine .of_replaced (exec_trunc_of_I1 (by rwa [hb]) (by rwa [hb]) hl') fun u hbu hou _ _ => ?_
  rw [hbu, hou, hsame, ho, hb]
  exact ⟨rfl, rfl⟩

end Sys2Proof.Machine
end

/-! # GETBIT and MAXBIT (42_bitaccess.md) -/

section
namespace Sys2Proof.Machine

/-! ## The bit read -/

/-- A stored byte's bit is the one read (10_state.md R36). -/
theorem readbit_of_stored {b : BitString} {p : Nat} {x : Byte} (hp : p / 8 < b.val.length)
    (hx : b.val[b.val.length - 1 - p / 8]? = some x) : readbit b p = some (x.getLsbD (p % 8)) := by
  simp [readbit, BitString.vlen, hp, hx]

/-- A bit that is read is that bit of the big-endian integer (10_state.md R37). -/
theorem testBit_of_readbit {b : BitString} {p : Nat} {x : Bool} (h : readbit b p = some x) :
    (beval b.val).testBit p = x := by
  by_cases hp : p / 8 < b.val.length
  · rw [readbit_eq_testBit b p hp] at h
    exact Option.some.inj h
  · rw [(readbitIsIntegerBit b p).2 (Nat.not_lt.1 hp)] at h
    cases h

/-! ## MAXBIT's scan -/

/-- What MAXBIT's scan over the positions below `n` finds: the highest one whose bit is 1, or that every bit
there is a stored 0 (42_bitaccess.md R197). -/
def HighestSet (b : BitString) (n : Nat) : Option Nat → Prop
  | none => ∀ p, p < n → readbit b p = some false
  | some p => p < n ∧ readbit b p = some true ∧ ∀ q, p < q → q < n → readbit b q = some false

/-- A stored 0 above the positions scanned changes nothing. -/
theorem HighestSet.succ {b : BitString} {n : Nat} {r : Option Nat} (h : HighestSet b n r)
    (hn : readbit b n = some false) : HighestSet b (n + 1) r := by
  have hzero {q : Nat} (hq : q < n + 1) (hlt : q < n → readbit b q = some false) : readbit b q = some false := by
    rcases Nat.lt_succ_iff_lt_or_eq.1 hq with hq | rfl
    · exact hlt hq
    · exact hn
  cases r with
  | none => exact fun p hp => hzero hp (h p)
  | some p =>
    obtain ⟨hp, hset, habove⟩ := h
    exact ⟨hp.trans (Nat.lt_succ_self n), hset, fun q hpq hq => hzero hq (habove q hpq)⟩

/-- A scan over stored positions ends without an error, with the highest set one. -/
theorem scanDown_of_stored (b : BitString) (n : Nat) (h : ∀ p, p < n → p / 8 < b.val.length) :
    ∃ r, scanDown b n = .ok r ∧ HighestSet b n r := by
  induction n with
  | zero => exact ⟨none, rfl, nofun⟩
  | succ n ih =>
    have hbit := readbit_eq_testBit b n (h n (Nat.lt_succ_self n))
    cases hset : (beval b.val).testBit n with
    | true =>
      rw [hset] at hbit
      exact ⟨some n, by simp [scanDown, hbit], Nat.lt_succ_self n, hbit, fun q hlt hle => absurd hle (by omega)⟩
    | false =>
      rw [hset] at hbit
      obtain ⟨r, hr, hmax⟩ := ih fun p hp => h p (hp.trans (Nat.lt_succ_self n))
      exact ⟨r, by simp [scanDown, hbit, hr], hmax.succ hbit⟩

/-- A scan stops at its first position when that byte is not stored (42_bitaccess.md R198). -/
theorem scanDown_of_missing {b : BitString} {n : Nat} (hn : 1 ≤ n) (h : b.val.length ≤ (n - 1) / 8) :
    scanDown b n = .error (n - 1) := by
  obtain ⟨p, rfl⟩ := Nat.exists_eq_add_of_le' hn
  have hbit : readbit b p = none := (readbitIsIntegerBit b p).2 h
  simp [scanDown, hbit]

/-- With no bit set below position `n`, the value modulo 2^n is 0. -/
theorem HighestSet.mod_eq_zero {b : BitString} {n : Nat} (h : HighestSet b n none) :
    beval b.val % 2 ^ n = 0 := by
  refine Nat.zero_of_testBit_eq_false fun p => ?_
  rw [Nat.testBit_mod_two_pow]
  by_cases hp : p < n
  · simp [testBit_of_readbit (h p hp)]
  · simp [hp]

/-- The highest set bit below position `n` is the top bit of the value modulo 2^n. -/
theorem HighestSet.two_pow_le_mod_lt {b : BitString} {n p : Nat} (h : HighestSet b n (some p)) :
    2 ^ p ≤ beval b.val % 2 ^ n ∧ beval b.val % 2 ^ n < 2 ^ (p + 1) := by
  obtain ⟨hp, hset, habove⟩ := h
  constructor
  · refine Nat.ge_two_pow_of_testBit ?_
    simp [Nat.testBit_mod_two_pow, hp, testBit_of_readbit hset]
  · refine Nat.lt_pow_two_of_testBit _ fun q hq => ?_
    rw [Nat.testBit_mod_two_pow]
    by_cases hqn : q < n
    · simp [testBit_of_readbit (habove q hq hqn)]
    · simp [hqn]

/-- A position is below 2^32, so RES holds it as it is. -/
theorem HighestSet.toNat_maxbitResult {b : BitString} {p : Nat} (h : HighestSet b b.len.toNat (some p)) :
    (maxbitResult (some p)).toNat = p := by
  have hp : p < 2 ^ 32 := h.1.trans b.len.isLt
  rw [maxbitResult, BitVec.toNat_ofNat, Nat.mod_eq_of_lt (by omega)]

/-! ## What each command answers -/

section
variable {s : State} {rs : RegIdx}

theorem exec_getbit_of_null (hp : (s.bs rs).p = false) :
    exec (.getbit rs) s = raiseFault .nullRcv rs.toNat 0 s :=
  if_pos hp

theorem exec_getbit_of_outside (hp : (s.bs rs).p = true)
    (hr : s.arg0.toInt < 0 ∨ ((s.bs rs).len.toNat : Int) ≤ s.arg0.toInt) :
    exec (.getbit rs) s =
      invalidArgument .range (s.arg0.toNat % 2 ^ 32) (s.arg0.toNat / 2 ^ 32) (s.setRes 0) := by
  rw [← toNat_lowHalf, ← toNat_highHalf]
  exact (if_neg (by simp [hp])).trans (if_pos hr)

section
variable {p : Nat} (hp : (s.bs rs).p = true) (ha : s.arg0.toInt = (p : Int)) (hlt : p < (s.bs rs).len.toNat)
include hp ha hlt

theorem exec_getbit_of_bit {x : Bool} (hx : readbit (s.bs rs) p = some x) :
    exec (.getbit rs) s = succeed (s.setRes (BitVec.ofNat 64 x.toNat)) := by
  simp [exec, execGetbit, hp, ha, Nat.not_le.2 hlt, hx, (Int.natCast_nonneg p).not_gt]

theorem exec_getbit_of_missing (hx : readbit (s.bs rs) p = none) :
    exec (.getbit rs) s = raiseFault .byteIdx p (s.bs rs).val.length s := by
  simp [exec, execGetbit, hp, ha, Nat.not_le.2 hlt, hx, BitString.vlen, (Int.natCast_nonneg p).not_gt]

end

theorem exec_maxbit_of_null (hp : (s.bs rs).p = false) :
    exec (.maxbit rs) s = raiseFault .nullRcv rs.toNat 0 s :=
  if_pos hp

theorem exec_maxbit_of_missing (hp : (s.bs rs).p = true) (h1 : 1 ≤ (s.bs rs).len.toNat)
    (hl : (s.bs rs).val.length < nbytes (s.bs rs).len.toNat) :
    exec (.maxbit rs) s = raiseFault .byteIdx ((s.bs rs).len.toNat - 1) (s.bs rs).val.length s := by
  have hmissing : (s.bs rs).val.length ≤ ((s.bs rs).len.toNat - 1) / 8 := by
    unfold nbytes at hl
    omega
  simp [exec, execMaxbit, hp, scanDown_of_missing h1 hmissing, BitString.vlen]

theorem exec_maxbit_of_stored (hp : (s.bs rs).p = true)
    (hl : nbytes (s.bs rs).len.toNat ≤ (s.bs rs).val.length) :
    ∃ r, HighestSet (s.bs rs) (s.bs rs).len.toNat r ∧
      exec (.maxbit rs) s = succeed (s.setRes (maxbitResult r)) := by
  unfold nbytes at hl
  obtain ⟨r, hr, hmax⟩ := scanDown_of_stored (s.bs rs) (s.bs rs).len.toNat fun p hlt => by omega
  exact ⟨r, hmax, by simp [exec, execMaxbit, hp, hr]⟩

/-- A command that ends in a write of RES succeeds, with an effect that holds of every state with that result and
every register and OBUF as before. -/
theorem Succeeds.of_setRes {i : Instr} {v : Word64} {effect : State → Prop}
    (h : exec i s = succeed (s.setRes v))
    (he : ∀ t : State, t.res = v → BankKept s t → t.obuf = s.obuf → effect t) :
    Succeeds i s effect :=
  .of_succeed h (.setRes s v) rfl fun t hb hr ho => he t hr (State.bs_congr hb) ho

end

/-! ## The statements -/

/-- Settles O32: the signed position is outside `[0, LEN)`, or a natural number whose byte is stored or not. -/
theorem getbitOperation : Obligations.GetbitOperation := by
  intro s rs
  refine ⟨fun hp => ?null, fun hp hr => ?range, fun p hp ha hlt => ⟨fun x hb hx => ?bit, fun hb => ?byteIdx⟩⟩
  case null => exact .of_raiseFault (exec_getbit_of_null hp)
  case range =>
    exact .of_invalidArgument (exec_getbit_of_outside hp hr) (.setRes s 0) rfl rfl fun _ hres ho => ⟨hres, ho⟩
  case bit =>
    refine .of_setRes (exec_getbit_of_bit hp ha hlt (readbit_of_stored hb hx)) fun t hres hk ho => ⟨?_, hk, ho⟩
    rw [hres, BitVec.getLsbD, Nat.toNat_testBit, BitVec.toNat_ofNat]
    omega
  case byteIdx => exact .of_raiseFault (exec_getbit_of_missing hp ha hlt ((readbitIsIntegerBit _ p).2 hb))

/-- Settles O33: the scan meets a missing byte at its first position or nowhere. -/
theorem maxbitOperation : Obligations.MaxbitOperation := by
  intro s rs
  refine ⟨fun hp => ?null, fun hp h1 hl => ?byteIdx, fun hp hl => ?found⟩
  case null => exact .of_raiseFault (exec_maxbit_of_null hp)
  case byteIdx =>
    have hlast : BitVec.ofNat 32 ((s.bs rs).len.toNat - 1) = (s.bs rs).len - 1 := by bv_omega
    exact hlast ▸ .of_raiseFault (exec_maxbit_of_missing hp h1 hl)
  case found =>
    obtain ⟨r, hmax, hexec⟩ := exec_maxbit_of_stored hp hl
    refine .of_setRes hexec fun t hres hk ho => ⟨?_, hk, ho⟩
    cases r with
    | none => exact .inl ⟨hmax, hres⟩
    | some p =>
      rw [hres, hmax.toNat_maxbitResult]
      exact .inr hmax

/-- Settles O43: under I1 every byte is stored, and the highest set bit below LEN is the top bit of the value
modulo 2^LEN. -/
theorem maxbitIsBitLength : Obligations.MaxbitIsBitLength := by
  intro s rs hp hl
  obtain ⟨r, hmax, hexec⟩ := exec_maxbit_of_stored hp hl.ge
  refine .of_setRes hexec fun t hres _ _ => ?_
  cases r with
  | none => exact ⟨fun _ => hres, fun hne => absurd hmax.mod_eq_zero hne⟩
  | some p =>
    have hbounds := hmax.two_pow_le_mod_lt
    rw [hres, hmax.toNat_maxbitResult]
    exact ⟨fun h0 => absurd h0 ((Nat.two_pow_pos p).trans_le hbounds.1).ne', fun _ => hbounds⟩

end Sys2Proof.Machine
end

/-! # TOUINT, FROMUINT and ADDUINT (43_integer.md) -/

section
namespace Sys2Proof.Machine

/-! ## What each command answers -/

section
variable {s : State} {rs : RegIdx}

theorem exec_touint_of_null (hp : (s.bs rs).p = false) :
    exec (.touint rs) s = raiseFault .nullRcv rs.toNat 0 s :=
  if_pos hp

theorem exec_touint_of_exceeds (hp : (s.bs rs).p = true) (hw : 2 ^ 64 ≤ beval (s.bs rs).val) :
    exec (.touint rs) s = raiseFault .width rs.toNat 0 s :=
  (if_neg (by simp [hp])).trans (if_pos hw)

theorem exec_fromuint_of_null (hp : (s.bs rs).p = false) :
    exec (.fromuint rs) s = raiseFault .nullRcv rs.toNat 0 s :=
  if_pos hp

theorem exec_fromuint_of_not_I1 (hp : (s.bs rs).p = true) (hl : ¬ (s.bs rs).I1) :
    exec (.fromuint rs) s = raiseFault .invariant (s.bs rs).vlen (nbytes (s.bs rs).len.toNat) s :=
  (if_neg (by simp [hp])).trans (if_pos hl)

theorem exec_fromuint_of_I1 (hp : (s.bs rs).p = true) (hl : (s.bs rs).I1) :
    exec (.fromuint rs) s = succeed (s.setVal rs
      (bepack (mask s.arg0.toNat (s.bs rs).len.toNat) (nbytes (s.bs rs).len.toNat))) :=
  (if_neg (by simp [hp])).trans (if_neg (not_not.2 hl))

theorem exec_adduint_of_null (hp : (s.bs rs).p = false) :
    exec (.adduint rs) s = raiseFault .nullRcv rs.toNat 0 s :=
  if_pos hp

theorem exec_adduint_of_not_I1 (hp : (s.bs rs).p = true) (hl : ¬ (s.bs rs).I1) :
    exec (.adduint rs) s = raiseFault .invariant (s.bs rs).vlen (nbytes (s.bs rs).len.toNat) s :=
  (if_neg (by simp [hp])).trans (if_pos hl)

section
variable (hp : (s.bs rs).p = true) (hl : (s.bs rs).I1)
include hp hl

theorem exec_adduint_of_fold_exceeds (ht : 2 ^ 64 ≤ beval (s.bs rs).val) :
    exec (.adduint rs) s = raiseFault .width rs.toNat 0 s :=
  (if_neg (by simp [hp])).trans ((if_neg (not_not.2 hl)).trans (if_pos ht))

theorem exec_adduint_of_sum_exceeds (ht : beval (s.bs rs).val < 2 ^ 64) (hL : 64 < (s.bs rs).len.toNat)
    (hw : 2 ^ 64 ≤ beval (s.bs rs).val + s.arg0.toNat) :
    exec (.adduint rs) s = raiseFault .width rs.toNat 1 s :=
  (if_neg (by simp [hp])).trans
    ((if_neg (not_not.2 hl)).trans ((if_neg (Nat.not_le.2 ht)).trans (if_pos ⟨hL, hw⟩)))

theorem exec_adduint_of_fits (ht : beval (s.bs rs).val < 2 ^ 64)
    (hw : (s.bs rs).len.toNat ≤ 64 ∨ beval (s.bs rs).val + s.arg0.toNat < 2 ^ 64) :
    exec (.adduint rs) s = succeed (s.setVal rs
      (bepack (mask (beval (s.bs rs).val + s.arg0.toNat) (s.bs rs).len.toNat)
        (nbytes (s.bs rs).len.toNat))) := by
  have hpass : ¬ (64 < (s.bs rs).len.toNat ∧ 2 ^ 64 ≤ beval (s.bs rs).val + s.arg0.toNat) := by omega
  exact (if_neg (by simp [hp])).trans
    ((if_neg (not_not.2 hl)).trans ((if_neg (Nat.not_le.2 ht)).trans (if_neg hpass)))

end

/-- A command that ends in a write of a masked integer to the bytes of a present register with I1 succeeds, keeps
P, LEN and the byte count, and leaves that integer modulo 2^LEN (43_integer.md R216, R221). -/
theorem Succeeds.of_setVal_bepack_mask {i : Instr} {v : Nat} (hp : (s.bs rs).p = true) (hl : (s.bs rs).I1)
    (h : exec i s = succeed (s.setVal rs
      (bepack (mask v (s.bs rs).len.toNat) (nbytes (s.bs rs).len.toNat)))) :
    Succeeds i s fun t =>
      (t.bs rs).p = true ∧ (t.bs rs).len = (s.bs rs).len ∧
      BytesOf (t.bs rs).val (s.bs rs).val.length (v % 2 ^ (s.bs rs).len.toNat) ∧
      BankKeptBut rs s t ∧ t.res = s.res ∧ t.obuf = s.obuf := by
  refine .of_setBs h fun t hb hk hr ho => ?_
  have hcount : (s.bs rs).val.length = nbytes (s.bs rs).len.toNat := hl
  rw [hb, hcount]
  exact ⟨hp, rfl, bytesOf_bepack_mask _ _, hk, hr, ho⟩

/-- An ADDUINT that succeeds leaves the sum modulo 2^LEN (43_integer.md R221). -/
theorem exec_adduint_ok {t : State} (h : exec (.adduint rs) s = .next t) (hc : t.status.cause = .ok) :
    beval (t.bs rs).val = (beval (s.bs rs).val + s.arg0.toNat) % 2 ^ (s.bs rs).len.toNat := by
  obtain ⟨u, hu, ht⟩ := exec_ok h hc
  cases ht
  cases hu with
  | adduint =>
    change beval ((s.setVal rs _).bs rs).val = _
    rw [State.bs_setVal_same]
    exact (bytesOf_bepack_mask _ _).2

end

/-! ## The statements -/

/-- Settles O34: a fold below 2^64 is held by RES as it is. -/
theorem touintOperation : Obligations.TouintOperation := by
  intro s rs
  refine ⟨fun hp => ?null, fun hp hw => ?fits, fun hp hw => ?width⟩
  case null => exact .of_raiseFault (exec_touint_of_null hp)
  case fits =>
    refine .of_setRes (exec_touint_of_fits hp hw) fun t hres hk ho => ⟨?_, hk, ho⟩
    rw [hres, BitVec.toNat_ofNat, Nat.mod_eq_of_lt hw]
  case width => exact .of_raiseFault (exec_touint_of_exceeds hp hw)

/-- Settles O35: the check on the byte count is I1, and the masked argument is packed on as many bytes. -/
theorem fromuintOperation : Obligations.FromuintOperation := by
  intro s rs
  refine ⟨fun hp => ?null, fun hp hl => ?invariant, fun hp hl => ?written⟩
  case null => exact .of_raiseFault (exec_fromuint_of_null hp)
  case invariant => exact .of_raiseFault (exec_fromuint_of_not_I1 hp hl)
  case written => exact .of_setVal_bepack_mask hp hl (exec_fromuint_of_I1 hp hl)

/-- Settles O36: one clause for each check of the command, then the masked sum on as many bytes. -/
theorem adduintOperation : Obligations.AdduintOperation := by
  intro s rs
  refine ⟨fun hp => ?null, fun hp hl => ?invariant, fun hp hl =>
    ⟨fun ht => ?foldWidth, fun ht hL hw => ?sumWidth, fun ht hw => ?written⟩⟩
  case null => exact .of_raiseFault (exec_adduint_of_null hp)
  case invariant => exact .of_raiseFault (exec_adduint_of_not_I1 hp hl)
  case foldWidth => exact .of_raiseFault (exec_adduint_of_fold_exceeds hp hl ht)
  case sumWidth => exact .of_raiseFault (exec_adduint_of_sum_exceeds hp hl ht hL hw)
  case written => exact .of_setVal_bepack_mask hp hl (exec_adduint_of_fits hp hl ht hw)

/-- Settles O44: 2^LEN divides 2^64, so cutting the sum to 64 bits first changes nothing modulo 2^LEN. -/
theorem adduintReadingsAgree : Obligations.AdduintReadingsAgree := by
  intro s t rs h hc hL
  rw [exec_adduint_ok h hc, Nat.mod_mod_of_dvd _ (pow_dvd_pow 2 hL)]

end Sys2Proof.Machine
end

/-! # SUBBS (44_slice.md) -/

section
namespace Sys2Proof.Machine

/-! ## The placement -/

/-- The first byte takes between 1 and 8 of the bits read, every other byte 8 (44_slice.md R243). -/
theorem bitsFirstByte_bounds {L : Nat} (hL : 1 ≤ L) :
    bitsFirstByte L + (nbytes L - 1) * 8 = L ∧ 1 ≤ bitsFirstByte L ∧ bitsFirstByte L ≤ 8 := by
  unfold bitsFirstByte nbytes
  omega

theorem place_byteMsbBitLsb_of_lt {k L : Nat} (hk : k < bitsFirstByte L) :
    place .byteMsbBitLsb k L = 8 * (nbytes L - 1) + k :=
  if_pos hk

theorem place_byteMsbBitLsb_of_ge {k L : Nat} (hk : bitsFirstByte L ≤ k) :
    place .byteMsbBitLsb k L =
      8 * (nbytes L - 1 - ((k - bitsFirstByte L) / 8 + 1)) + (k - bitsFirstByte L) % 8 :=
  if_neg (Nat.not_lt.2 hk)

theorem place_lt (order : SubOrder) {k L : Nat} (hk : k < L) : place order k L < L := by
  cases order with
  | reverse => simp only [place]; omega
  | byteMsbBitLsb =>
    have hbff := bitsFirstByte_bounds (Nat.one_le_of_lt hk)
    rcases Nat.lt_or_ge k (bitsFirstByte L) with h | h
    · rw [place_byteMsbBitLsb_of_lt h]; omega
    · rw [place_byteMsbBitLsb_of_ge h]; omega
  | straight => exact hk

/-- Under the two orders that follow the source, the first `bff` bits read go to `VAL[0]` and each following group
of 8 to the next byte (44_slice.md R243). -/
theorem byte_place {order : SubOrder} (ho : order ≠ .straight) {k L : Nat} (hk : k < L) :
    nbytes L - 1 - place order k L / 8 =
      if k < bitsFirstByte L then 0 else (k - bitsFirstByte L) / 8 + 1 := by
  have hbff := bitsFirstByte_bounds (Nat.one_le_of_lt hk)
  cases order with
  | reverse => simp only [place]; split <;> omega
  | byteMsbBitLsb =>
    split
    next h => rw [place_byteMsbBitLsb_of_lt h]; omega
    next h => rw [place_byteMsbBitLsb_of_ge (Nat.not_lt.1 h)]; omega
  | straight => exact absurd rfl ho

theorem place_injOn (order : SubOrder) (L : Nat) : Set.InjOn (place order · L) {k | k < L} := by
  intro j hj k hk h
  change place order j L = place order k L at h
  change j < L at hj
  change k < L at hk
  cases order with
  | reverse => simp only [place] at h; omega
  | byteMsbBitLsb =>
    have hbff := bitsFirstByte_bounds (Nat.one_le_of_lt hk)
    rcases Nat.lt_or_ge j (bitsFirstByte L) with hj' | hj'
    · rw [place_byteMsbBitLsb_of_lt hj'] at h
      rcases Nat.lt_or_ge k (bitsFirstByte L) with hk' | hk'
      · rw [place_byteMsbBitLsb_of_lt hk'] at h; omega
      · rw [place_byteMsbBitLsb_of_ge hk'] at h; omega
    · rw [place_byteMsbBitLsb_of_ge hj'] at h
      rcases Nat.lt_or_ge k (bitsFirstByte L) with hk' | hk'
      · rw [place_byteMsbBitLsb_of_lt hk'] at h; omega
      · rw [place_byteMsbBitLsb_of_ge hk'] at h; omega
  | straight => exact h

/-- A map of `[0, L)` into itself with no two equal values misses no position. -/
theorem exists_place_eq (order : SubOrder) {q L : Nat} (hq : q < L) : ∃ k, k < L ∧ place order k L = q := by
  have hinj : Function.Injective fun k : Fin L => (⟨place order k L, place_lt order k.isLt⟩ : Fin L) :=
    fun j k h => Fin.ext (place_injOn order L j.isLt k.isLt (congrArg Fin.val h))
  obtain ⟨k, hk⟩ := Finite.injective_iff_surjective.1 hinj ⟨q, hq⟩
  exact ⟨k, k.isLt, congrArg Fin.val hk⟩

/-! ## The value of a slice -/

/-- The integer of the positions below LEN, which is all SUBBS sees of its source (44_slice.md R241). -/
def BitString.lowValue (b : BitString) : Nat := beval b.val % 2 ^ b.len.toNat

/-- `R` after the first `n` bits read, on a source whose bits are those of `v` (44_slice.md R241). -/
def sliceValue (order : SubOrder) (v start L n : Nat) : Nat :=
  ∑ k ∈ Finset.range n, (v.testBit (start + k)).toNat * 2 ^ place order k L

/-- The places that receive a 1. -/
def slicePlaces (order : SubOrder) (v start L : Nat) : Finset Nat :=
  ((Finset.range L).filter fun k => v.testBit (start + k) = true).image (place order · L)

/-- No two bits read share a place, so the integer of a slice is a sum of distinct powers of 2. -/
theorem sliceValue_eq_sum_slicePlaces (order : SubOrder) (v start L : Nat) :
    sliceValue order v start L L = ∑ p ∈ slicePlaces order v start L, 2 ^ p := by
  rw [slicePlaces, Finset.sum_image, Finset.sum_filter]
  · refine Finset.sum_congr rfl fun k _ => ?_
    cases v.testBit (start + k) <;> simp
  · exact (place_injOn order L).mono fun k hk => Finset.mem_range.1 (Finset.mem_filter.1 hk).1

/-- The bits of a slice are the bits read, each at its place. -/
theorem testBit_sliceValue {order : SubOrder} {v start L q : Nat} :
    (sliceValue order v start L L).testBit q = true ↔
      ∃ k, k < L ∧ v.testBit (start + k) = true ∧ place order k L = q := by
  rw [sliceValue_eq_sum_slicePlaces, ← Nat.mem_bitIndices, ← List.mem_toFinset,
    Finset.toFinset_bitIndices_sum_two_pow]
  simp [slicePlaces, and_assoc]

/-- The place of the k-th bit read holds that bit. -/
theorem testBit_sliceValue_place (order : SubOrder) (v start : Nat) {k L : Nat} (hk : k < L) :
    (sliceValue order v start L L).testBit (place order k L) = v.testBit (start + k) := by
  rw [Bool.eq_iff_iff, testBit_sliceValue]
  constructor
  · rintro ⟨j, hj, hbit, hplace⟩
    rwa [← place_injOn order L hj hk hplace]
  · exact fun hbit => ⟨k, hk, hbit, rfl⟩

/-- No bit read has its place at or above `L`. -/
theorem testBit_sliceValue_of_ge (order : SubOrder) (v start : Nat) {L q : Nat} (hq : L ≤ q) :
    (sliceValue order v start L L).testBit q = false := by
  refine Bool.eq_false_iff.2 fun hbit => ?_
  obtain ⟨k, hk, -, rfl⟩ := testBit_sliceValue.1 hbit
  exact absurd (place_lt order hk) (Nat.not_lt.2 hq)

/-- `R < 2^L` (44_slice.md R244). -/
theorem sliceValue_lt (order : SubOrder) (v start L : Nat) : sliceValue order v start L L < 2 ^ L :=
  Nat.lt_pow_two_of_testBit _ fun _ => testBit_sliceValue_of_ge order v start

/-- A slice is fixed by its bits below `L`, one for each bit read. -/
theorem sliceValue_eq_mod {order : SubOrder} {v start L w : Nat}
    (h : ∀ k, k < L → w.testBit (place order k L) = v.testBit (start + k)) :
    sliceValue order v start L L = w % 2 ^ L := by
  refine Nat.eq_of_testBit_eq fun q => ?_
  rw [Nat.testBit_mod_two_pow]
  by_cases hq : q < L
  · obtain ⟨k, hk, rfl⟩ := exists_place_eq order hq
    simp [testBit_sliceValue_place, h, hk, hq]
  · simp [testBit_sliceValue_of_ge order v start (Nat.not_lt.1 hq), hq]

theorem sliceValue_straight (v start L : Nat) : sliceValue .straight v start L L = v / 2 ^ start % 2 ^ L :=
  sliceValue_eq_mod fun k _ => by rw [Nat.testBit_div_two_pow, Nat.add_comm, place]

/-- Reversing the low `L` bits twice gives them back. -/
theorem sliceValue_reverse_reverse (v L : Nat) :
    sliceValue .reverse (sliceValue .reverse v 0 L L) 0 L L = v % 2 ^ L := by
  refine sliceValue_eq_mod fun k hk => ?_
  have hmirror : place .reverse (place .reverse k L) L = k := by
    simp only [place]
    omega
  have hbit := testBit_sliceValue_place .reverse v 0 (place_lt .reverse hk)
  rw [hmirror, Nat.zero_add] at hbit
  rw [Nat.zero_add, hbit]

/-! ## The loop -/

section
variable {b : BitString} {start : Nat}

/-- Where no byte is missing, the bit read is that of the integer below LEN, a 0 at and above LEN. -/
theorem readbit_below_len {k : Nat} (h : ¬ SliceBitMissing b start k) :
    (if start + k < b.len.toNat then readbit b (start + k) else some false) =
      some (b.lowValue.testBit (start + k)) := by
  rw [BitString.lowValue, Nat.testBit_mod_two_pow]
  split
  next hlen =>
    have hstored : (start + k) / 8 < b.val.length := Nat.not_le.1 fun hge => h ⟨hlen, hge⟩
    simp [readbit_eq_testBit b _ hstored, hlen]
  next hlen => simp [hlen]

theorem sliceBit_of_stored {k : Nat} (h : ¬ SliceBitMissing b start k) :
    sliceBit b (start + k) = .ok (b.lowValue.testBit (start + k)).toNat := by
  have hbit := readbit_below_len h
  unfold sliceBit
  split at hbit
  next hlen => rw [if_pos hlen, hbit]
  next hlen => rw [if_neg hlen, ← Option.some.inj hbit]; rfl

/-- A position below LEN whose byte is not stored is an error (44_slice.md R241). -/
theorem sliceBit_of_missing {k : Nat} (h : SliceBitMissing b start k) :
    sliceBit b (start + k) = .error (start + k) := by
  obtain ⟨hlen, hmissing⟩ := h
  rw [sliceBit, if_pos hlen, (readbitIsIntegerBit b (start + k)).2 hmissing]

variable {order : SubOrder} {L n : Nat}

theorem sliceSum_of_stored (h : ∀ k, k < n → ¬ SliceBitMissing b start k) :
    sliceSum order b start L n = .ok (sliceValue order b.lowValue start L n) := by
  induction n with
  | zero => rfl
  | succ n ih =>
    simp only [sliceSum, ih fun k hk => h k (hk.trans (Nat.lt_succ_self n)),
      sliceBit_of_stored (h n (Nat.lt_succ_self n)), sliceValue, Finset.sum_range_succ]

/-- The loop stops at the first missing byte in read order (44_slice.md R245). -/
theorem sliceSum_of_missing {k : Nat} (hk : k < n) (hmissing : SliceBitMissing b start k)
    (hfirst : ∀ j, j < k → ¬ SliceBitMissing b start j) :
    sliceSum order b start L n = .error (start + k) := by
  induction n, hk using Nat.le_induction with
  | base => simp only [sliceSum, sliceSum_of_stored hfirst, sliceBit_of_missing hmissing]
  | succ n _ ih => simp only [sliceSum, ih]

/-- A loop that ends without a fault has met no missing byte, so it answers the sum over every bit read. -/
theorem sliceSum_ok {r : Nat} (h : sliceSum order b start L n = .ok r) :
    r = sliceValue order b.lowValue start L n := by
  classical
  by_cases hmissing : ∃ k, k < n ∧ SliceBitMissing b start k
  · obtain ⟨hk, hm⟩ := Nat.find_spec hmissing
    have hfirst (j : Nat) (hj : j < Nat.find hmissing) : ¬ SliceBitMissing b start j :=
      fun hj' => Nat.find_min hmissing hj ⟨hj.trans hk, hj'⟩
    cases h.symm.trans (sliceSum_of_missing hk hm hfirst)
  · exact Except.ok.inj (h.symm.trans (sliceSum_of_stored fun k hk hm => hmissing ⟨k, hk, hm⟩))

end

/-! ## What the command answers -/

/-- The register a successful SUBBS writes (44_slice.md R241). -/
def sliceResult (s : State) (rs : RegIdx) : BitString where
  p := true
  len := s.argLen
  val := bepack (sliceValue s.params.subOrder (s.bs rs).lowValue (startArg s) (lenArg s) (lenArg s))
    (nbytes (lenArg s))

/-- The bytes of a slice hold its integer whole. -/
theorem beval_sliceResult (s : State) (rs : RegIdx) :
    beval (sliceResult s rs).val =
      sliceValue s.params.subOrder (s.bs rs).lowValue (startArg s) (lenArg s) (lenArg s) := by
  refine beval_bepack_of_lt _ _ ((sliceValue_lt _ _ _ _).trans_le ?_)
  rw [pow256]
  exact Nat.pow_le_pow_right (by decide) (nbytes_mul_ge _)

/-- The bits a slice stores, excess bits with them, are those of its integer. -/
theorem readbit_sliceResult (s : State) (rs : RegIdx) {p : Nat} (hp : p < 8 * nbytes (lenArg s)) :
    readbit (sliceResult s rs) p = some ((sliceValue s.params.subOrder (s.bs rs).lowValue (startArg s)
      (lenArg s) (lenArg s)).testBit p) := by
  rw [readbit_eq_testBit, beval_sliceResult]
  rw [sliceResult, length_bepack]
  omega

section
variable {s : State} {rd rs : RegIdx}

theorem exec_subbs_of_null (hp : (s.bs rs).p = false) :
    exec (.subbs rd rs) s = raiseFault .nullRcv rs.toNat 0 s :=
  if_pos hp

section
variable (hp : (s.bs rs).p = true)
include hp

theorem exec_subbs_of_zeroSlice (h0 : lenArg s = 0) :
    exec (.subbs rd rs) s = raiseFault .zeroSlice 0 0 s := by
  simp [exec, execSubbs, hp, h0]

theorem exec_subbs_of_exceeds (h0 : lenArg s ≠ 0) (hn : s.params.vmax < nbytes (lenArg s)) :
    exec (.subbs rd rs) s = raiseFault .capacity (nbytes (lenArg s)) s.params.vmax s := by
  simp [exec, execSubbs, hp, h0, hn]

theorem exec_subbs_of_missing {k : Nat} (hn : nbytes (lenArg s) ≤ s.params.vmax) (hk : k < lenArg s)
    (hmissing : SliceBitMissing (s.bs rs) (startArg s) k)
    (hfirst : ∀ j, j < k → ¬ SliceBitMissing (s.bs rs) (startArg s) j) :
    exec (.subbs rd rs) s = raiseFault .byteIdx (startArg s + k) (s.bs rs).val.length s := by
  have h0 : lenArg s ≠ 0 := Nat.ne_zero_of_lt hk
  simp [exec, execSubbs, hp, h0, Nat.not_lt.2 hn, sliceSum_of_missing hk hmissing hfirst, BitString.vlen]

theorem exec_subbs_of_stored (h0 : lenArg s ≠ 0) (hn : nbytes (lenArg s) ≤ s.params.vmax)
    (hstored : ∀ k, k < lenArg s → ¬ SliceBitMissing (s.bs rs) (startArg s) k) :
    exec (.subbs rd rs) s = succeed (s.setBs rd (sliceResult s rs)) := by
  simp [exec, execSubbs, sliceResult, hp, h0, Nat.not_lt.2 hn, sliceSum_of_stored hstored]

end

/-- A SUBBS that succeeds leaves the slice in B[rd] (44_slice.md R241). -/
theorem exec_subbs_ok {t : State} (h : exec (.subbs rd rs) s = .next t) (hc : t.status.cause = .ok) :
    t.bs rd = sliceResult s rs := by
  obtain ⟨u, hu, ht⟩ := exec_ok h hc
  cases ht
  cases hu with
  | subbs _ _ r _ _ _ hr =>
    rw [argLen_toNat, argStart_eq] at hr
    change (s.setBs rd _).bs rd = _
    simp [sliceResult, sliceSum_ok hr]

end

/-! ## The statements -/

/-- Settles O45: a map of `[0, L)` into itself with no two equal values. -/
theorem placeIsBijection : Obligations.PlaceIsBijection := by
  intro order L _
  exact ⟨fun k => place_lt order, fun j k hj hk => place_injOn order L hj hk, fun q => exists_place_eq order⟩

/-- Settles O46: the byte of a place by the division of its formula. -/
theorem placeFollowsByteOrder : Obligations.PlaceFollowsByteOrder := by
  intro order k L hk
  obtain ⟨hsum, hpos, hle⟩ := bitsFirstByte_bounds (Nat.one_le_of_lt hk)
  refine ⟨nbytes L, bitsFirstByte L, rfl, hsum, hpos, hle, ?_, fun ho => byte_place ho hk⟩
  cases order <;> rfl

/-- Settles O37: one clause for each check, and the loop's first missing byte. -/
theorem subbsChecks : Obligations.SubbsChecks := by
  intro s rd rs
  refine ⟨fun hp => ?null, fun hp h0 => ?zeroSlice, fun hp h0 hn => ?capacity,
    fun k hp hn hk hmissing hfirst => ?byteIdx⟩
  case null => exact .of_raiseFault (exec_subbs_of_null hp)
  case zeroSlice => exact .of_raiseFault (exec_subbs_of_zeroSlice hp h0)
  case capacity => exact .of_raiseFault (exec_subbs_of_exceeds hp h0 hn)
  case byteIdx => exact .of_raiseFault (exec_subbs_of_missing hp hn hk hmissing hfirst)

/-- Settles O38: the stored bits are those of an integer below `2^len` whose bit at each place is the bit read. -/
theorem subbsResult : Obligations.SubbsResult := by
  intro s rd rs hp h0 hn hstored
  refine .of_setBs (exec_subbs_of_stored hp h0 hn hstored) fun t hb hk hr ho => ?_
  rw [hb]
  refine ⟨rfl, argLen_toNat s, length_bepack _ _, fun k hk => ?placed, fun p hle hlt => ?excess, hk, hr, ho⟩
  case placed =>
    have hlt := (place_lt s.params.subOrder hk).trans_le (nbytes_mul_ge _)
    rw [readbit_below_len (hstored k hk), readbit_sliceResult s rs hlt, testBit_sliceValue_place _ _ _ hk]
  case excess => rw [readbit_sliceResult s rs hlt, testBit_sliceValue_of_ge _ _ _ hle]

/-- Settles O47: bit q of the slice is bit `start + q` of the source below LEN. -/
theorem subbsStraightIsDivMod : Obligations.SubbsStraightIsDivMod := by
  intro s t rd rs ho h hc
  rw [exec_subbs_ok h hc, beval_sliceResult, ho, sliceValue_straight, BitString.lowValue]

/-- Settles O48: the first slice is below `2^len`, the second reads all of it, and reversing twice is the identity. -/
theorem subbsReverseTwice : Obligations.SubbsReverseTwice := by
  intro s t u rd rs rq ho h0 ht hct hu hcu
  have hk := commandsKeepInputs _ _ _ ht
  have hstart : startArg t = startArg s := congrArg (·.toNat % 2 ^ 32) hk.arg0
  have hlen : lenArg t = lenArg s := congrArg (·.toNat % 2 ^ 32) hk.arg1
  have hlow : (t.bs rd).lowValue = sliceValue .reverse (s.bs rs).lowValue 0 (lenArg s) (lenArg s) := by
    have hlt := sliceValue_lt .reverse (s.bs rs).lowValue 0 (lenArg s)
    have hL : (sliceResult s rs).len.toNat = lenArg s := argLen_toNat s
    rw [exec_subbs_ok ht hct, BitString.lowValue, beval_sliceResult, hL, ho, h0, Nat.mod_eq_of_lt hlt]
  rw [exec_subbs_ok hu hcu, beval_sliceResult, hk.params, ho, hstart, h0, hlen, hlow,
    sliceValue_reverse_reverse, BitString.lowValue]

end Sys2Proof.Machine
end

/-! # Outcomes and stops (60_exceptions.md)

The outcome a command ends with, and the stops of a step, each said once; the statements of R262 to R269 read
them off. -/

section
namespace Sys2Proof.Machine

/-! ## The outcome of a command -/

/-- The outputs the invalid-argument outcome leaves (60_exceptions.md R263): UPDV and TRUNC keep RES, GETBIT clears
RES and keeps OBUF. -/
def RejectOutputs (i : Instr) (s t : State) : Prop :=
  (∃ rs, i = .updv rs ∨ i = .trunc rs) ∧ t.res = s.res ∨
  (∃ rs, i = .getbit rs) ∧ t.res = 0 ∧ t.obuf = s.obuf

theorem RejectWrites.outputs {s u : State} {i : Instr} (h : RejectWrites s i u) : RejectOutputs i s u := by
  cases h with
  | output _ rs _ hi => exact .inl ⟨⟨rs, hi⟩, rfl⟩
  | zeroResult rs => exact .inr ⟨⟨rs, rfl⟩, rfl, rfl⟩

/-- How a command turns the state `s` into `t` (60_exceptions.md R262 to R264). -/
inductive CommandOutcome (i : Instr) (s t : State) : Prop where
  | success (h : SuccessOutcome s t)
  | invalid (c : Cause) (i0 i1 : Word32) (hc : c.isInvalid = true) (h : InvalidOutcome c i0 i1 s t)
      (hb : BankKept s t) (ho : RejectOutputs i s t)
  | fault (c : Cause) (i0 i1 : Word32) (hc : c.isFault = true) (hi : c ≠ .illegal)
      (h : FaultOutcome c i0 i1 t) (hk : OnlyOutcomeChanged s t)

/-- A command that answers a next state ends by one of the three outcomes. -/
theorem exec_outcome {i : Instr} {s t : State} (h : exec i s = .next t) : CommandOutcome i s t := by
  rcases exec_cases i s with ⟨he, -⟩ | ⟨c, i0, i1, hc, hi, he⟩ | ⟨c, i0, i1, u, hc, hu, he⟩ | ⟨u, hu, he⟩
  · cases he.symm.trans h
  · obtain ⟨t', ht, ho, hk⟩ := RaisesFault.of_raiseFault he
    cases ht.symm.trans h
    exact .fault c _ _ hc hi ho hk
  · obtain ⟨hk, hst, hb⟩ := hu.inputs
    obtain ⟨t', ht, ho, -, hbank, hout⟩ := RejectsArgument.of_invalidArgument (effect := fun t =>
      t.res = u.res ∧ t.obuf = u.obuf) he hk hst hb fun _ hr ho => ⟨hr, ho⟩
    cases ht.symm.trans h
    obtain ⟨hres, hobuf⟩ := hout
    exact .invalid c _ _ hc ho hbank (by rw [RejectOutputs, hres, hobuf]; exact hu.outputs)
  · obtain ⟨hk, hst⟩ := hu.inputs
    obtain ⟨t', ht, ho, -⟩ := Succeeds.of_succeed (effect := fun _ => True) he hk hst fun _ _ _ _ => trivial
    cases ht.symm.trans h
    exact .success ho

/-- The codes of the invalid-argument causes (60_exceptions.md R260). -/
theorem causeNumber_of_isInvalid {c : Cause} (h : c.isInvalid = true) : 1 ≤ causeNumber c ∧ causeNumber c ≤ 4 := by
  revert h
  cases c <;> decide

/-- The codes of the fault causes a command raises (60_exceptions.md R260). -/
theorem causeNumber_of_isFault {c : Cause} (h : c.isFault = true) (hi : c ≠ .illegal) :
    9 ≤ causeNumber c ∧ causeNumber c ≤ 14 := by
  revert h hi
  cases c <;> decide

/-- Settles O20: the STATUS word of each outcome as the sum of R265. -/
theorem outcomeIsOneOfThree : Obligations.OutcomeIsOneOfThree := by
  intro i s t hf h
  have hw := Status.toNat_word t.status
  cases exec_outcome h with
  | success ho =>
    have hfault := ho.fault.trans hf
    rw [ho.cause, ho.err, hfault] at hw
    exact .inl ⟨ho.err, hfault, BitVec.eq_of_toNat_eq hw, ho.info0, ho.info1⟩
  | invalid c _ _ hc ho =>
    have hfault := ho.fault.trans hf
    obtain ⟨hge, hle⟩ := causeNumber_of_isInvalid hc
    rw [ho.cause, ho.err, hfault] at hw
    exact .inr (.inl ⟨ho.err, hfault, causeNumber c, hge, hle, hw.trans (Nat.add_comm (causeNumber c) 0x100)⟩)
  | fault c _ _ hc hi ho =>
    obtain ⟨hge, hle⟩ := causeNumber_of_isFault hc hi
    rw [ho.cause, ho.err, ho.fault] at hw
    exact .inr (.inr ⟨ho.err, ho.fault, causeNumber c, hge, hle, hw.trans (Nat.add_comm (causeNumber c) 0x200)⟩)

/-- Settles O21: of the three outcomes only the fault sets FAULT. -/
theorem faultsArePrecise : Obligations.FaultsArePrecise := by
  intro i s t hf h ht
  cases exec_outcome h with
  | success ho => exact absurd (ht.symm.trans (ho.fault.trans hf)) nofun
  | invalid _ _ _ _ ho => exact absurd (ht.symm.trans (ho.fault.trans hf)) nofun
  | fault _ _ _ _ _ _ hk => exact hk

/-- Settles O22: of the three outcomes only the invalid argument sets ERR. -/
theorem invalidArgumentKeepsRegisters : Obligations.InvalidArgumentKeepsRegisters := by
  intro i s t h he
  cases exec_outcome h with
  | success ho => exact absurd (he.symm.trans ho.err) nofun
  | invalid _ _ _ _ _ hb ho => exact ⟨hb, ho⟩
  | fault _ _ _ _ _ ho => exact absurd (he.symm.trans ho.err) nofun

/-! ## Where a step stops -/

/-- A command stops only on an unwritten candidate cell of a LOADBS or UPDV (60_exceptions.md R268). -/
theorem exec_next_or_stops (i : Instr) (s : State) :
    (∃ t, exec i s = .next t) ∨
    (exec i s = .fault .uninitIbuf ∧ CandidateUnwritten s ∧ ∃ r, i = .loadbs r ∨ i = .updv r) := by
  rcases exec_cases i s with ⟨he, hc, hi⟩ | ⟨c, i0, i1, -, -, he⟩ | ⟨c, i0, i1, u, -, -, he⟩ | ⟨u, -, he⟩
  · exact .inr ⟨he, (candidate_eq_none_iff s).1 hc, hi⟩
  · exact .inl ⟨_, he⟩
  · exact .inl ⟨_, he⟩
  · exact .inl ⟨_, he⟩

/-- A write of CMD stops only in a command that does, on a block that is not faulted. -/
theorem runCommand_next_or_stops (w : Word32) (s : State) :
    (∃ t, runCommand w s = .next t) ∨
    (runCommand w s = .fault .uninitIbuf ∧ CandidateUnwritten s ∧ s.status.fault = false ∧
      ((∃ rd, decode w = .ok (.loadbs rd)) ∨ (∃ rs, decode w = .ok (.updv rs)))) := by
  cases hf : s.status.fault with
  | true => exact .inl ⟨s, runCommand_of_fault w hf⟩
  | false =>
    by_cases hw : ∃ i, decode w = .ok i ∧ i.wellFormed s.params.nbs = true
    · obtain ⟨i, hd, hwf⟩ := hw
      rw [runCommand_of_decode hf hd hwf]
      refine (exec_next_or_stops i s).imp_right fun ⟨he, hc, r, hi⟩ => ⟨he, hc, rfl, ?_⟩
      exact hi.imp (fun hi => ⟨r, hd.trans (congrArg _ hi)⟩) (fun hi => ⟨r, hd.trans (congrArg _ hi)⟩)
    · rw [runCommand_of_illegal hf ((illegalWordsExactly s.params.nbs w).2 hw)]
      exact .inl ⟨_, illegalWord_eq w s⟩

/-- A read of BDATA stops only on an unwritten cell of IBUF (60_exceptions.md R268). -/
theorem readBdata_next_or_stops (s : State) :
    (∃ t, readBdata s = .next t) ∨
    (readBdata s = .fault .uninitHostRead ∧ s.bsel.toNat = 16 ∧ s.baddr.toNat < s.params.vmax ∧
      s.ibuf.read s.baddr.toNat = none) := by
  simp only [readBdata]
  split
  · exact .inl ⟨_, rfl⟩
  · rename_i hlen
    split
    · exact .inl ⟨_, rfl⟩
    · rename_i hn
      split
      · exact .inl ⟨_, rfl⟩
      · rename_i ho
        split
        · rename_i hx
          have hb : s.bsel.toNat = 16 := by
            by_contra hb
            simp [State.buflen, hn, hb, ho] at hlen
          rw [State.buflen, if_neg hn, if_pos hb, Nat.not_le] at hlen
          exact .inr ⟨rfl, hb, hlen, hx⟩
        · exact .inl ⟨_, rfl⟩

/-- What a step answers: a next state, or a stop together with what it has met (60_exceptions.md R268, R269). -/
inductive StepEnds (s : State) : Result → Prop where
  | next (t : State) : StepEnds s (.next t)
  | misaligned (h : ¬ NextAligned s) : StepEnds s (.refused .misaligned)
  | uninitIbuf (w : Word32) (rest : List HostEvent) (h : s.host = .write 0x00C w :: rest)
      (hf : s.status.fault = false) (hc : CandidateUnwritten s)
      (hd : (∃ rd, decode w = .ok (.loadbs rd)) ∨ (∃ rs, decode w = .ok (.updv rs))) :
      StepEnds s (.fault .uninitIbuf)
  | uninitHostRead (rest : List HostEvent) (h : s.host = .read 0x058 :: rest) (hb : s.bsel.toNat = 16)
      (hi : s.baddr.toNat < s.params.vmax) (hx : s.ibuf.read s.baddr.toNat = none) :
      StepEnds s (.fault .uninitHostRead)

/-- A step that reads a window offset. -/
theorem step_read_ends {s : State} {a : Offset} {rest : List HostEvent} (h : s.host = .read a :: rest) :
    StepEnds s (step s) := by
  by_cases ha : a.toNat % 4 = 0
  · by_cases hb : windowReg a = .bdata
    · obtain rfl : a = 0x058 := eq_offsetOf hb nofun
      rw [step_read h, memRead_bdata]
      rcases readBdata_next_or_stops { s with host := rest } with ⟨t, ht⟩ | ⟨he, hb, hi, hx⟩
      · exact ht ▸ .next t
      · exact he ▸ .uninitHostRead rest h hb hi hx
    · rw [step_read_peek h ha hb]
      exact .next _
  · rw [step_read h, memRead_misaligned ha]
    exact .misaligned (by simpa [NextAligned, h] using ha)

/-- A step that writes a window offset. -/
theorem step_write_ends {s : State} {a : Offset} {v : Word32} {rest : List HostEvent}
    (h : s.host = .write a v :: rest) : StepEnds s (step s) := by
  by_cases ha : a.toNat % 4 = 0
  · by_cases hc : a = 0x00C
    · subst hc
      rw [step_write h, memWrite_cmd]
      rcases runCommand_next_or_stops v { s with host := rest, reply := some .written } with
        ⟨t, ht⟩ | ⟨he, hc, hf, hd⟩
      · exact ht ▸ .next t
      · exact he ▸ .uninitIbuf v rest h hf hc hd
    · rw [step_write_reg h ha hc]
      exact .next _
  · rw [step_write h, memWrite_misaligned ha]
    exact .misaligned (by simpa [NextAligned, h] using ha)

/-- Every step ends in one of these ways. -/
theorem step_ends (s : State) : StepEnds s (step s) := by
  cases h : s.host with
  | nil => exact step_idle h ▸ .next _
  | cons e rest =>
    cases e with
    | read a => exact step_read_ends h
    | write a v => exact step_write_ends h
    | resetPulse => exact step_resetPulse h ▸ .next _

/-- Settles O14: each shape of a step from a faulted state, a reset pulse aside, keeps the three registers. -/
theorem faultIsSticky : Obligations.FaultIsSticky :=
  fun _ _ => step_keeps_fault

/-- Settles O16: what each stop has met is excluded by the hypotheses. -/
theorem readyStepAnswersNext : Obligations.ReadyStepAnswersNext := by
  rintro s ha ⟨hcells, hbyte⟩
  have he := step_ends s
  generalize step s = r at he ⊢
  cases he with
  | next t => exact ⟨t, rfl⟩
  | misaligned hna => exact absurd ha hna
  | uninitIbuf _ _ _ _ hc =>
    obtain ⟨j, hj, hx⟩ := hc
    exact absurd hx (hcells j hj)
  | uninitHostRead _ _ hb hi hx => exact absurd hx (hbyte hb hi)

/-- Settles O17: each stop has met what `StepEnds` records of it. -/
theorem stopsOnlyWhereSpecStops : Obligations.StopsOnlyWhereSpecStops := by
  intro s
  have he := step_ends s
  refine ⟨fun r h => ?_, fun h => ?_, fun h => ?_⟩
  · rw [h] at he
    cases he with | misaligned hna => exact ⟨rfl, hna⟩
  · rw [h] at he
    cases he with | uninitIbuf w rest hh hf hc hd => exact ⟨hc, w, rest, hh, hf, hd⟩
  · rw [h] at he
    cases he with | uninitHostRead rest hh _ _ hx => exact ⟨hx, rest, hh⟩

end Sys2Proof.Machine
end
